-- ==== Sys2Proof/Word.lean ====
section
/-! DEFINITION. The word types of the codec and their plainest arithmetic (00_scope.md R5, R6, R8). -/

namespace Sys2Proof

/-- One octet: a payload byte or a text symbol (`BYTE_BITS = 8`, R5; `SYM_W = 8`, R6). -/
abbrev Byte := BitVec 8

/-- One 5-bit index into an alphabet (`INDEX_BITS = 5`, R5). -/
abbrev Index := BitVec 5

/-- The 40-bit group buffer (`BUF_BITS = 40`, R5, R49). It is a value inside one step, never state (R19). -/
abbrev GroupBuf := BitVec 40

/-- The 2-bit command word of `CMD` (`CMD_W = 2`, R6, R45). -/
abbrev CmdWord := BitVec 2

/-- `ceil(x / y)` as R8 defines it. -/
def ceilDiv (x y : Nat) : Nat := (x + y - 1) / y

end Sys2Proof
end

