-- ==== Sys2Proof/Config.lean ====
section
/-! DEFINITION. What is fixed for one codec: which alphabets exist, the open capacities of R7, and the free values of the
reads the spec leaves unspecified. -/

namespace Sys2Proof

/-- The two alphabets (R2, R52, R53); `ALPHA = 0` is the standard one, `ALPHA = 1` the hex-extended one (R11). -/
inductive Alphabet where
  | standard
  | hexExtended
  deriving DecidableEq, Repr

/-- The open parameters `IN_CAP` and `OUT_CAP` of R7; `none` stands for unbounded (R7: "a natural number, or unbounded").
DESIGN CHOICE (log entry 1): the model takes them as an argument in the form of a field of State that no step writes. -/
structure Capacities where
  /-- `IN_CAP`, the capacity of `IN` in octets. -/
  inCap : Option Nat
  /-- `OUT_CAP`, the capacity of `OUT` in octets. -/
  outCap : Option Nat
  deriving DecidableEq, Repr

/-- The capacities of a codec that admits every message (R7). -/
def Capacities.unbounded : Capacities := { inCap := none, outCap := none }

/-- `n` octets fit a buffer of the given capacity. -/
def Capacities.fits : Option Nat → Nat → Bool
  | none, _ => true
  | some c, n => decide (n ≤ c)

/-- The address `a` exists in a buffer of the given capacity. -/
def Capacities.hasAddress : Option Nat → Nat → Bool
  | none, _ => true
  | some c, a => decide (a < c)

/-- The least width `w` with `2^w > cap`: `LEN_W` for `IN_CAP`, `OLEN_W` for `OUT_CAP` (R7). -/
def Capacities.widthFor (cap : Nat) : Nat := if cap = 0 then 0 else Nat.log2 cap + 1

/-- The octet an unspecified octet read returns: `RD_IN` of a cell that holds no value, `RD_OUT` outside a result (R132, U1, U3).
It has no body, so nothing can be proved of its value. The argument is the counter `State.draws` (log entry 4). -/
opaque Config.freeOctet : Nat → Byte

/-- The `ERR` field of a `RD_STATUS` taken while the codec is busy (R24, U4; log entry 4). -/
opaque Config.freeBit : Nat → Bool

/-- The length a `RD_OUTLEN` returns while the codec is busy (R24, R132, U4; log entry 4). -/
opaque Config.freeLength : Nat → Nat

end Sys2Proof
end

