-- ==== Sys2Proof/Machine/Alphabet.lean ====
section
/-! DEFINITION. The constant tables `ROM_ENC` and `ROM_DEC` (10_state.md R20, 30_encoding.md R51 to R56). -/

namespace Sys2Proof.Machine

/-- The octet of the padding character `=` (R54; the number is PRESUMED, log entry 15). -/
def padOctet : Byte := 0x3D#8

/-- The symbols of the standard alphabet in index order: the "standard octet" column of R53's table
(glyphs R52; octets PRESUMED from ASCII, log entry 15). -/
def standardSymbols : List Byte :=
  [0x41#8, 0x42#8, 0x43#8, 0x44#8, 0x45#8, 0x46#8, 0x47#8, 0x48#8,
   0x49#8, 0x4A#8, 0x4B#8, 0x4C#8, 0x4D#8, 0x4E#8, 0x4F#8, 0x50#8,
   0x51#8, 0x52#8, 0x53#8, 0x54#8, 0x55#8, 0x56#8, 0x57#8, 0x58#8,
   0x59#8, 0x5A#8, 0x32#8, 0x33#8, 0x34#8, 0x35#8, 0x36#8, 0x37#8]

/-- The symbols of the hex-extended alphabet in index order: the "hex-extended octet" column of R53's table. -/
def hexExtendedSymbols : List Byte :=
  [0x30#8, 0x31#8, 0x32#8, 0x33#8, 0x34#8, 0x35#8, 0x36#8, 0x37#8,
   0x38#8, 0x39#8, 0x41#8, 0x42#8, 0x43#8, 0x44#8, 0x45#8, 0x46#8,
   0x47#8, 0x48#8, 0x49#8, 0x4A#8, 0x4B#8, 0x4C#8, 0x4D#8, 0x4E#8,
   0x4F#8, 0x50#8, 0x51#8, 0x52#8, 0x53#8, 0x54#8, 0x55#8, 0x56#8]

/-- The symbols of an alphabet. -/
def symbolsOf : Alphabet → List Byte
  | .standard => standardSymbols
  | .hexExtended => hexExtendedSymbols

/-- `ROM_ENC(alpha, i)` (R52, R53). Each table has 32 entries, so the list lookup never runs off its end. -/
def romEnc (α : Alphabet) (i : Index) : Byte := (symbolsOf α).getD i.toNat padOctet

/-- `ROM_DEC(alpha, c)` for every octet (R55): the index whose symbol is `c`, or none. -/
def romDec (α : Alphabet) (c : Byte) : Option Index :=
  ((symbolsOf α).findIdx? (· == c)).map (BitVec.ofNat 5)

end Sys2Proof.Machine
end

