-- ==== Sys2Proof/Syntax.lean ====
section
/-! DEFINITION. The commands of the codec: one constructor per row of the opcode table (30_encoding.md R46). -/

namespace Sys2Proof

/-- The four commands (R46). A command has no field (R45): its operand is the message in `IN` (R48). -/
inductive Instr where
  /-- `ENC32`, encode with the standard alphabet (R74). -/
  | enc32
  /-- `DEC32`, decode with the standard alphabet (R100). -/
  | dec32
  /-- `ENC32HEX`, encode with the hex-extended alphabet (R75). -/
  | enc32hex
  /-- `DEC32HEX`, decode with the hex-extended alphabet (R101). -/
  | dec32hex
  deriving DecidableEq, Repr

end Sys2Proof
end

