-- ==== Sys2Proof/Machine/HostSyntax.lean ====
section
/-! DEFINITION. What the host can say to the codec: the host actions (10_state.md R24), the program lines with their
pseudo-actions (30_encoding.md R62, R63), the replies of the reads, and the turns of the two agents. -/

namespace Sys2Proof.Machine

/-- The host actions of R24. Their argument ranges are checked where they act (Machine/HostPort.lean) and in WellFormed.lean. -/
inductive HostAction where
  /-- `WR_CMD(c)`. -/
  | wrCmd (c : CmdWord)
  /-- `WR_INLEN(n)`, `0 <= n <= IN_CAP`. -/
  | wrInLen (n : Nat)
  /-- `WR_IN(a, v)`, `0 <= a < IN_CAP`. -/
  | wrIn (a : Nat) (v : Byte)
  /-- `START`. -/
  | start
  /-- `RD_STATUS`. -/
  | rdStatus
  /-- `RD_OUTLEN`. -/
  | rdOutLen
  /-- `RD_OUT(a)`, `0 <= a < OUT_CAP`. -/
  | rdOut (a : Nat)
  /-- `RD_CMD`. -/
  | rdCmd
  /-- `RD_INLEN`. -/
  | rdInLen
  /-- `RD_IN(a)`, `0 <= a < IN_CAP`. -/
  | rdIn (a : Nat)
  /-- `RESET`. -/
  | reset
  deriving DecidableEq, Repr

/-- One line of a host program: an action (R62) or a pseudo-action (R63). -/
inductive HostLine where
  /-- A host action. -/
  | act (a : HostAction)
  /-- `LOAD s`. -/
  | load (s : List Byte)
  /-- `WAIT`. -/
  | wait
  /-- `RESULT`. -/
  | result
  /-- The third part of `RESULT`: `RD_OUT a` for every `a` below the length the last `RD_OUTLEN` returned. -/
  | readOut
  /-- `COPYBACK`. -/
  | copyback
  /-- The last part of `COPYBACK`: `LOAD` of the octets just read from `OUT`. -/
  | loadBack
  /-- `encode32 s`, `decode32 s`, `encode32hex s` or `decode32hex s`, by its command. -/
  | call (i : Instr) (s : List Byte)
  deriving DecidableEq, Repr

/-- What a host read returns (R24). -/
inductive Reply where
  /-- `RD_STATUS`: (`BUSY`, `DONE`, `ERR`). -/
  | status (busy done err : Bool)
  /-- `RD_OUTLEN`. -/
  | outLen (n : Nat)
  /-- `RD_OUT`. -/
  | outOctet (v : Byte)
  /-- `RD_CMD`. -/
  | cmd (c : CmdWord)
  /-- `RD_INLEN`. -/
  | inLen (n : Nat)
  /-- `RD_IN`. -/
  | inOctet (v : Byte)
  deriving DecidableEq, Repr

/-- Whose turn it is: the codec takes one step (R18), or the host takes one program line (R9, R24). -/
inductive Turn where
  | codec
  | host (l : HostLine)
  deriving DecidableEq, Repr

end Sys2Proof.Machine
end

