-- ==== Sys2Proof/Machine/State.lean ====
section
/-! DEFINITION. The state of one codec instance with its host, the reasons a step can stop, and the state after reset. -/

namespace Sys2Proof.Machine

/-- The four values of the sequencer state `ST` (R12). -/
inductive SeqState where
  /-- No operation has run since reset. -/
  | idle
  /-- A decode is validating its text. -/
  | check
  /-- An operation is producing output. -/
  | xfer
  /-- The last operation has ended; `ERR`, `OUT_LEN`, `OUT` hold its result. -/
  | done
  deriving DecidableEq, Repr

/-- A buffer of octets: the cells that hold a value, at strictly rising addresses (`Memory.wf`, Machine/Ops.lean).
An address that is not listed holds no value (R22, R133; log entry 3). -/
abbrev Memory := List Host.Cell

/-- The complete state of one codec instance (R10), then the model's own fields. -/
structure State where
  /-- `CMD` (R11): bit 0 `OP`, bit 1 `ALPHA`. -/
  cmd : CmdWord
  /-- `ST` (R12). -/
  st : SeqState
  /-- `ERR` (R13). -/
  err : Bool
  /-- `RP` (R14). -/
  rp : Nat
  /-- `DLEN` (R15). -/
  dlen : Nat
  /-- `IN_LEN` (R16). -/
  inLen : Nat
  /-- `OUT_LEN` (R16). -/
  outLen : Nat
  /-- `IN` (R17). -/
  inMem : Memory
  /-- `OUT` (R17). -/
  outMem : Memory
  /-- The open parameters of R7, which no step writes (log entry 1). -/
  caps : Capacities
  /-- The turns the two agents take next, first turn first; when it is empty the codec steps (log entry 5). -/
  agenda : List Turn
  /-- What the host's reads have returned, newest first (log entry 6). -/
  replies : List Reply
  /-- The index of the next free value (log entry 4). -/
  draws : Nat
  deriving DecidableEq, Repr

/-- Why the machine stops. None is the codec's own: its one error, `InvalidInput`, is an ordinary outcome (R105, 93_implementation_defined.md section 2). -/
inductive Fault where
  /-- Raised by a codec step in a busy state for which the table of R18 has no row. Safe: no run from reset reaches one (R12, R18; log entry 9). -/
  | noStepEnabled
  /-- Raised by a codec step whose `MemRead(IN, a, n)` breaks `a + n <= IN_LEN` (R8, R26). Safe: no run from reset reaches it (log entry 9). -/
  | readPastMessage
  /-- Raised by a codec step whose `MemWrite(OUT, a, n, s)` breaks `a + n <= OUT_CAP` (R8). Safe: no run from reset reaches it (R33; log entry 9). -/
  | outOverflow
  /-- Raised by `DEC.BLOCK` on characters outside the domain of `DecBlock` (R90). Safe: `DEC.CHECK` rules them out (R98; log entry 9). -/
  | blockOutsideDomain
  /-- Raised by `WR_IN` (while not busy) and `RD_IN` at an address that does not exist in `IN` (R24, R25). Safe (log entry 10). -/
  | addressOutsideIn
  /-- Raised by `WR_INLEN` (while not busy) with a length above `IN_CAP` (R24). Safe (log entry 10). -/
  | lengthAboveCapacity
  deriving DecidableEq, Repr

/-- Why an action or an instruction has no meaning. -/
inductive Refusal where
  /-- Raised by an arm of exec whose instruction has no meaning yet. Safe. -/
  | notModelled (mnemonic : String)
  /-- Raised by `START`, and by a codec step that reads `IN`, over a message cell that holds no value: R133 makes the behaviour
  unspecified and has the model refuse it (U2). Safe (log entry 13). -/
  | messageCellUnwritten
  deriving DecidableEq, Repr

/-- The state after reset (R22) of a codec with the given capacities, its host having nothing to do. -/
def State.resetWith (caps : Capacities) : State :=
  { cmd := 0b00#2, st := .idle, err := false, rp := 0, dlen := 0, inLen := 0, outLen := 0,
    inMem := [], outMem := [], caps := caps, agenda := [], replies := [], draws := 0 }

/-- The machine right after reset (R22), with unbounded buffers (log entry 1). -/
def State.reset : State := State.resetWith Capacities.unbounded

end Sys2Proof.Machine
end

