-- ==== Sys2Proof/Machine/Flags.lean ====
section
/-! DEFINITION. The status views, and the validator's verdict that decides `ERR`: the trailing run, the character
validator, the length and padding checker (41_decoder.md R84 to R88). -/

namespace Sys2Proof.Machine

/-- The 2-bit code of `ST` (R12). -/
def seqCode : SeqState → BitVec 2
  | .idle => 0b00#2
  | .check => 0b01#2
  | .xfer => 0b10#2
  | .done => 0b11#2

/-- `BUSY`: `ST` is `CHECK` or `XFER` (R12). -/
def busy (s : State) : Bool :=
  match s.st with
  | .idle => false
  | .check => true
  | .xfer => true
  | .done => false

/-- `DONE`: `ST = DONE` (R12). -/
def doneView (s : State) : Bool := decide (s.st = .done)

/-- `P`: the length of the trailing run of padding (R84). -/
def trailingRun (t : List Byte) : Nat := (t.reverse.takeWhile (· == padOctet)).length

/-- `D = L - P`: the length of the data portion (R84). -/
def dataLength (t : List Byte) : Nat := t.length - trailingRun t

/-- The data portion `t[0 .. D)` (R84). -/
def dataPortion (t : List Byte) : List Byte := t.take (dataLength t)

/-- The character validator on a data portion (R85): every octet is a symbol of the alphabet. -/
def allSymbols (α : Alphabet) (d : List Byte) : Bool := d.all fun c => (romDec α c).isSome

/-- The length and padding checker: the nine accepted pairs `(r, P)` (R59, R86). -/
def accepted (r p : Nat) : Bool :=
  (r == 0 && p == 0) ||
  (r == 2 && (p == 6 || p == 0)) ||
  (r == 4 && (p == 4 || p == 0)) ||
  (r == 5 && (p == 3 || p == 0)) ||
  (r == 7 && (p == 1 || p == 0))

/-- The validator's verdict on a text: R85 and R86 together. `InvalidInput` is raised exactly when it is false (R97, R107). -/
def validText (α : Alphabet) (t : List Byte) : Bool :=
  allSymbols α (dataPortion t) && accepted (dataLength t % 8) (trailingRun t)

end Sys2Proof.Machine
end

