-- ==== Sys2Proof/WellFormed.lean ====
section
/-! DEFINITION. Which commands, capacities and host lines are well formed. -/

namespace Sys2Proof

/-- Every command is well formed: it has no field (R45), and no value of `CMD` is reserved or illegal (R47). -/
def Instr.wellFormed : Instr → Bool
  | .enc32 => true
  | .dec32 => true
  | .enc32hex => true
  | .dec32hex => true

/-- The constraint of R7 on the capacities: `OUT_CAP >= 8 * ceil(IN_CAP / 5)`. -/
def Capacities.wellFormed (c : Capacities) : Bool :=
  match c.inCap, c.outCap with
  | _, none => true
  | none, some _ => false
  | some i, some o => decide (8 * ceilDiv i 5 ≤ o)

/-- The argument of a host action lies in the range R24 gives it. -/
def Machine.HostAction.wellFormed (c : Capacities) : HostAction → Bool
  | .wrCmd _ => true
  | .wrInLen n => Capacities.fits c.inCap n
  | .wrIn a _ => Capacities.hasAddress c.inCap a
  | .start => true
  | .rdStatus => true
  | .rdOutLen => true
  | .rdOut a => Capacities.hasAddress c.outCap a
  | .rdCmd => true
  | .rdInLen => true
  | .rdIn a => Capacities.hasAddress c.inCap a
  | .reset => true

/-- A program line is well formed when its message fits `IN` and its action is well formed (R63). -/
def Machine.HostLine.wellFormed (c : Capacities) : HostLine → Bool
  | .act a => a.wellFormed c
  | .load s => Capacities.fits c.inCap s.length
  | .wait => true
  | .result => true
  | .readOut => true
  | .copyback => true
  | .loadBack => true
  | .call i s => i.wellFormed && Capacities.fits c.inCap s.length

end Sys2Proof
end

