-- ==== Sys2Proof/Decode.lean ====
section
/-! DEFINITION. The decoder of command words and, after it, the encoder, both from the command format of 30_encoding.md
R45 and R46. -/

namespace Sys2Proof

/-- The command a 2-bit `CMD` selects: bit 1 is `ALPHA`, bit 0 is `OP` (R45); all four values are defined (R46, R47). -/
def decodeCmd (c : CmdWord) : Instr :=
  match c.getLsbD 1, c.getLsbD 0 with
  | false, false => .enc32
  | false, true => .dec32
  | true, false => .enc32hex
  | true, true => .dec32hex

/-- Why octets are no command. -/
inductive DecodeReject where
  /-- There is no octet to read a command from. -/
  | noOctet
  /-- The octet has a bit above the two bits of the command format `CMD2` (R45, R61). -/
  | bitsAboveCommand
  deriving DecidableEq, Repr

/-- The decoder on octets, total, with the octets it did not read.
DESIGN CHOICE (log entry 11): outside the `CMD` register a command word lies in the two low bits of one octet. -/
def decodeOctets : List Byte → Except DecodeReject (Instr × List Byte)
  | [] => .error .noOctet
  | b :: rest =>
    if b.extractLsb' 2 6 = 0#6 then .ok (decodeCmd (b.extractLsb' 0 2), rest)
    else .error .bitsAboveCommand

/-- The low `n` octets of `w`, the lowest first. -/
def octetsOf : Nat → Nat → List Byte
  | 0, _ => []
  | n + 1, w => BitVec.ofNat 8 w :: octetsOf n (w / 256)

/-- The instruction the decoder reads from the opcode table's word `w` of `nbits` bits; octets after the command must be zero. -/
def decodeTableWord (nbits w : Nat) : Option Instr :=
  match decodeOctets (octetsOf ((nbits + 7) / 8) (w % 2 ^ nbits)) with
  | .ok (i, rest) => if rest.all (· == 0#8) then some i else none
  | .error _ => none

/-- The command word of an instruction, from the table of R46. -/
def encode : Instr → CmdWord
  | .enc32 => 0b00#2
  | .dec32 => 0b01#2
  | .enc32hex => 0b10#2
  | .dec32hex => 0b11#2

/-- The octet that carries the command word (log entry 11). -/
def encodeOctets (i : Instr) : List Byte := [(encode i).setWidth 8]

end Sys2Proof
end

