-- ==== Sys2Proof/Machine/Operands.lean ====
section
/-! DEFINITION. The operand forms: the command in `CMD` with its two fields, the message and its cuts into groups and
blocks, and the byte and index lanes of the 40-bit group buffer. -/

namespace Sys2Proof.Machine

/-- The command `CMD` holds, which every step reads (R11, R43). -/
def fetchCommand (s : State) : Instr := decodeCmd s.cmd

/-- `CMD.OP = 1`: decode (R11). -/
def opIsDecode (s : State) : Bool := s.cmd.getLsbD 0

/-- The alphabet `CMD.ALPHA` selects (R11). -/
def alphabetOf (c : CmdWord) : Alphabet := if c.getLsbD 1 then .hexExtended else .standard

/-- The alphabet of a command (R46). -/
def alphabetOfInstr : Instr → Alphabet
  | .enc32 => .standard
  | .dec32 => .standard
  | .enc32hex => .hexExtended
  | .dec32hex => .hexExtended

/-- `m[w*q .. min(w*q + w, len(m)))`: the `q`-th cut of width `w` of a message (R32: groups in fives, blocks in eights). -/
def cut (w q : Nat) (m : List Byte) : List Byte := (m.drop (w * q)).take w

/-- All cuts of width `w` of a message, in order; only the last can be short (R69, R94). -/
def cuts (w : Nat) (m : List Byte) : List (List Byte) :=
  (List.range (ceilDiv m.length w)).map fun q => cut w q m

/-- Byte lane `k` of the group buffer, `BUF[39-8k : 32-8k]` (R49). -/
def byteLane (B : GroupBuf) (k : Nat) : Byte := B.extractLsb' (32 - 8 * k) 8

/-- Index lane `j` of the group buffer, `BUF[39-5j : 35-5j]` (R50). -/
def indexLane (B : GroupBuf) (j : Nat) : Index := B.extractLsb' (35 - 5 * j) 5

/-- The group buffer whose byte lanes are the given bytes, first byte most significant, the lanes past them zero (R29, R49). -/
def bufOfBytes (g : List Byte) : GroupBuf :=
  g.getD 0 0 ++ g.getD 1 0 ++ g.getD 2 0 ++ g.getD 3 0 ++ g.getD 4 0

/-- The group buffer whose index lanes are the given indices, the lanes past them zero (R31, R50). -/
def bufOfIndices (l : List Index) : GroupBuf :=
  l.getD 0 0 ++ l.getD 1 0 ++ l.getD 2 0 ++ l.getD 3 0 ++ l.getD 4 0 ++ l.getD 5 0 ++ l.getD 6 0 ++ l.getD 7 0

end Sys2Proof.Machine
end

