-- ==== Sys2Proof/Machine/Ops.lean ====
section
/-! DEFINITION. The named operations over buffers and registers: reading and writing cells, `MemRead`, `MemWrite`, the
register updates of the steps and of the host actions, and the error outcome (60_exceptions.md R108). -/

namespace Sys2Proof.Machine

/-- What a cell that is not listed reads as: no value (R22, R124, R133; log entry 3). -/
def unlistedCell : Option Byte := none

/-- The value cell `a` holds, if it holds one. -/
def Memory.read : Memory → Nat → Option Byte
  | [], _ => unlistedCell
  | (k, v) :: m, a => if k = a then some v else Memory.read m a

/-- Cell `a` holds `v` from now on; the listed addresses stay strictly rising. -/
def Memory.write : Memory → Nat → Byte → Memory
  | [], a, v => [(a, v)]
  | (k, w) :: m, a, v =>
    if a < k then (a, v) :: (k, w) :: m
    else if a = k then (a, v) :: m
    else (k, w) :: Memory.write m a v

/-- The canonical form: listed addresses strictly rising. (A listed cell holds an octet, and an unlisted one reads as no value, so
no listed cell equals what an unlisted one reads as.) -/
def Memory.wf : Memory → Bool
  | [] => true
  | (k, _) :: m => m.all (fun c => decide (k < c.1)) && Memory.wf m

/-- The octets of cells `a`, `a+1`, ..., `a+n-1`, lowest address first (R8); none when one of them holds no value. -/
def Memory.readRange (m : Memory) : Nat → Nat → Option (List Byte)
  | _, 0 => some []
  | a, n + 1 =>
    match Memory.read m a, Memory.readRange m (a + 1) n with
    | some v, some vs => some (v :: vs)
    | _, _ => none

/-- The octets of a sequence into the cells from `a` upwards (R8). -/
def Memory.writeRange : Memory → Nat → List Byte → Memory
  | m, _, [] => m
  | m, a, v :: vs => Memory.writeRange (Memory.write m a v) (a + 1) vs

/-- The message `IN[0 .. IN_LEN)` (R17, R48); none when one of its cells holds no value. -/
def message (s : State) : Option (List Byte) := Memory.readRange s.inMem 0 s.inLen

/-- `WR_CMD`: `CMD <- c`. -/
def State.setCmd (s : State) (c : CmdWord) : State := { s with cmd := c }

/-- `WR_INLEN`: `IN_LEN <- n`. -/
def State.setInLen (s : State) (n : Nat) : State := { s with inLen := n }

/-- `WR_IN`: `IN[a] <- v`. -/
def State.storeIn (s : State) (a : Nat) (v : Byte) : State := { s with inMem := Memory.write s.inMem a v }

/-- The effect of `START` (R24). -/
def State.begin (s : State) : State :=
  { s with rp := 0, dlen := 0, outLen := 0, err := false, st := if opIsDecode s then .check else .xfer }

/-- The effect of `RESET` on the codec (R22, R124): the registers, and both buffers lose their values. -/
def State.resetCodec (s : State) : State :=
  { s with cmd := 0b00#2, st := .idle, err := false, rp := 0, dlen := 0, inLen := 0, outLen := 0, inMem := [], outMem := [] }

/-- A step that produced the octets `bs` from `d` octets of the message: append at `OUT_LEN`, advance both pointers (R27, R72, R98). -/
def State.produce (s : State) (bs : List Byte) (d : Nat) : State :=
  { s with outMem := Memory.writeRange s.outMem s.outLen bs, outLen := s.outLen + bs.length, rp := s.rp + d }

/-- `ST <- DONE` and nothing else: `ENC.END` (R73) and `DEC.END` (R99). -/
def State.finish (s : State) : State := { s with st := .done }

/-- `DLEN <- D`, `ST <- XFER`: `DEC.CHECK` on an accepted text (R97). -/
def State.acceptText (s : State) (d : Nat) : State := { s with dlen := d, st := .xfer }

/-- The register writes of the error outcome (R108). -/
def State.invalidInput (s : State) : State := { s with err := true, outLen := 0, st := .done }

/-- The host has read `r`. -/
def State.reply (s : State) (r : Reply) : State := { s with replies := r :: s.replies }

/-- A free value has been drawn: the next draw is another one (log entry 4). -/
def State.draw (s : State) : State := { s with draws := s.draws + 1 }

/-- The turns that are left. -/
def State.setAgenda (s : State) (l : List Turn) : State := { s with agenda := l }

/-- `raise InvalidInput`: taking the one exception (R105, R108). Nothing is saved, nothing is masked, control goes nowhere; the codec
waits in `DONE`. There is no return from it: the next `START` or `RESET` clears `ERR` (R112). -/
def raiseInvalidInput (s : State) : Host.Outcome State Fault Refusal := .next s.invalidInput

/-- `MemRead(IN, a, n)` and what is done with the octets read (R8, R26). -/
def memRead (a n : Nat) (s : State) (k : List Byte → Host.Outcome State Fault Refusal) : Host.Outcome State Fault Refusal :=
  if a + n ≤ s.inLen then
    match Memory.readRange s.inMem a n with
    | some g => k g
    | none => .refused .messageCellUnwritten
  else .fault .readPastMessage

/-- `MemWrite(OUT, OUT_LEN, len(bs), bs)` with the pointer advances of the step that produced `bs` from `d` octets (R8, R27). -/
def memAppend (bs : List Byte) (d : Nat) (s : State) : Host.Outcome State Fault Refusal :=
  if Capacities.fits s.caps.outCap (s.outLen + bs.length) then .next (s.produce bs d) else .fault .outOverflow

/-- A command word written and started in one go, the next turn the codec's: what withFetchWord stands for (log entry 12). -/
def State.startCommand (s : State) (c : CmdWord) : State :=
  ((s.setCmd c).begin).setAgenda (.codec :: s.agenda)

end Sys2Proof.Machine
end

