-- ==== Sys2Proof/Machine/Decoder.lean ====
section
/-! DEFINITION. The group decoder and character validator (41_decoder.md): its functions R82 to R95, its steps R97 to R99,
the commands `DEC32` (R100) and `DEC32HEX` (R101). -/

namespace Sys2Proof.Machine

/-- The indices of a sequence of characters; none when one is no symbol of the alphabet (R82, R90). -/
def indicesOf (α : Alphabet) : List Byte → Option (List Index)
  | [] => some []
  | c :: cs =>
    match romDec α c, indicesOf α cs with
    | some i, some is => some (i :: is)
    | _, _ => none

/-- `NBYTES(r)`: the bytes of a final partial block of `r` data characters (R59, R89); none where no text is accepted. -/
def nBytes : Nat → Option Nat
  | 0 => some 0
  | 2 => some 1
  | 4 => some 2
  | 5 => some 3
  | 7 => some 4
  | _ => none

/-- The bytes a block of `d` data characters yields: 5 for `d = 8`, else `NBYTES(d)`, for `d` in 2, 4, 5, 7, 8 (R90, R91). -/
def blockBytes (d : Nat) : Option Nat := if d = 8 then some 5 else if d = 0 then none else nBytes d

/-- `DecBuf(alpha, s)` on the indices of the characters (R90). -/
def decBuf (l : List Index) : GroupBuf := bufOfIndices l

/-- The first `n` byte lanes of a group buffer (R91). -/
def firstBytes (B : GroupBuf) (n : Nat) : List Byte := (List.range n).map (byteLane B)

/-- `DecBlock(alpha, s)` (R91); none outside its domain (R90). The low bits past the bytes are dropped unchecked (R93). -/
def decBlock (α : Alphabet) (s : List Byte) : Option (List Byte) :=
  match indicesOf α s, blockBytes s.length with
  | some l, some n => some (firstBytes (decBuf l) n)
  | _, _ => none

/-- The block results one after the other (R94). -/
def decBlocks (α : Alphabet) : List (List Byte) → Option (List Byte)
  | [] => some []
  | b :: bs =>
    match decBlock α b, decBlocks α bs with
    | some x, some y => some (x ++ y)
    | _, _ => none

/-- `Decode(alpha, t)` (R94): the bytes, or none for `InvalidInput`. -/
def decodeMessage (α : Alphabet) (t : List Byte) : Option (List Byte) :=
  if validText α t then decBlocks α (cuts 8 (dataPortion t)) else none

/-- The pairs (data characters, padding characters) a final block may hold (R88). -/
def finalBlockPairs : List (Nat × Nat) :=
  [(8, 0), (2, 6), (2, 0), (4, 4), (4, 0), (5, 3), (5, 0), (7, 1), (7, 0)]

/-- A final block is `d` symbols, then `p` padding characters, `(d, p)` one of R88's pairs. -/
def finalBlockValid (α : Alphabet) (b : List Byte) : Bool :=
  allSymbols α (dataPortion b) && finalBlockPairs.contains (dataLength b, trailingRun b)

/-- The blocks of a text: every one but the last is 8 symbols, the last a valid final block (R88). -/
def blocksValid (α : Alphabet) : List (List Byte) → Bool
  | [] => true
  | [b] => finalBlockValid α b
  | b :: c :: bs => allSymbols α b && blocksValid α (c :: bs)

/-- The validation said block by block (R88); the machine uses `validText`, and a claim says the two agree. -/
def validBlockwise (α : Alphabet) (t : List Byte) : Bool := blocksValid α (cuts 8 t)

/-- Step `DEC.CHECK` (R97). -/
def decCheckStep (α : Alphabet) (s : State) : Host.Outcome State Fault Refusal :=
  memRead 0 s.inLen s fun t => if validText α t then .next (s.acceptText (dataLength t)) else raiseInvalidInput s

/-- Step `DEC.BLOCK` (R98). -/
def decBlockStep (α : Alphabet) (s : State) : Host.Outcome State Fault Refusal :=
  let d := min 8 (s.dlen - s.rp)
  memRead s.rp d s fun b =>
    match decBlock α b with
    | some bytes => memAppend bytes d s
    | none => .fault .blockOutsideDomain

/-- One codec step of a decode (R18): `DEC.CHECK`, `DEC.BLOCK`, `DEC.END`, or none in `IDLE` and `DONE` (log entry 8). -/
def decStep (α : Alphabet) (s : State) : Host.Outcome State Fault Refusal :=
  match s.st with
  | .idle => .next s
  | .done => .next s
  | .check => decCheckStep α s
  | .xfer =>
    if s.rp < s.dlen then decBlockStep α s
    else if s.rp = s.dlen then .next s.finish
    else .fault .noStepEnabled

/-- `DEC32` (R100). -/
def execDec32 (s : State) : Host.Outcome State Fault Refusal := decStep .standard s

/-- `DEC32HEX` (R101). -/
def execDec32hex (s : State) : Host.Outcome State Fault Refusal := decStep .hexExtended s

end Sys2Proof.Machine
end

