-- ==== Sys2Proof/Machine/Encoder.lean ====
section
/-! DEFINITION. The group encoder (40_encoder.md): its functions R65 to R71, its steps R72 and R73, the commands `ENC32`
(R74) and `ENC32HEX` (R75). -/

namespace Sys2Proof.Machine

/-- `EncBuf(g)` (R65). -/
def encBuf (g : List Byte) : GroupBuf := bufOfBytes g

/-- `EncIdx(B, j)` (R66). -/
def encIdx (B : GroupBuf) (j : Nat) : Index := indexLane B j

/-- `NDATA(n)`: the data characters of a group of `n` bytes (R58, R67). -/
def nData (n : Nat) : Nat := ceilDiv (8 * n) 5

/-- `NPAD(n)` (R58, R67). -/
def nPad (n : Nat) : Nat := 8 - nData n

/-- `EncGroup(alpha, g)`: the eight text symbols of a group (R68). -/
def encGroup (α : Alphabet) (g : List Byte) : List Byte :=
  (List.range 8).map fun j => if j < nData g.length then romEnc α (encIdx (encBuf g) j) else padOctet

/-- `Encode(alpha, m)`: the text of a whole payload (R69). -/
def encodeMessage (α : Alphabet) (m : List Byte) : List Byte := (cuts 5 m).flatMap (encGroup α)

/-- Step `ENC.GROUP` (R72). -/
def encGroupStep (α : Alphabet) (s : State) : Host.Outcome State Fault Refusal :=
  let n := min 5 (s.inLen - s.rp)
  memRead s.rp n s fun g => memAppend (encGroup α g) n s

/-- One codec step of an encode (R18): `ENC.GROUP`, `ENC.END`, or none in `IDLE` and `DONE`, where the codec waits (log entry 8). -/
def encStep (α : Alphabet) (s : State) : Host.Outcome State Fault Refusal :=
  match s.st with
  | .idle => .next s
  | .done => .next s
  | .check => .fault .noStepEnabled
  | .xfer =>
    if s.rp < s.inLen then encGroupStep α s
    else if s.rp = s.inLen then .next s.finish
    else .fault .noStepEnabled

/-- `ENC32` (R74). -/
def execEnc32 (s : State) : Host.Outcome State Fault Refusal := encStep .standard s

/-- `ENC32HEX` (R75). -/
def execEnc32hex (s : State) : Host.Outcome State Fault Refusal := encStep .hexExtended s

end Sys2Proof.Machine
end

