-- ==== Sys2Proof/Machine/Dispatch.lean ====
section
/-! DEFINITION. One arm per command: one codec step of that command. -/

namespace Sys2Proof.Machine

def exec (i : Instr) (s : State) : Host.Outcome State Fault Refusal :=
  match i with
  | .enc32 => Sys2Proof.Machine.execEnc32 s
  | .dec32 => Sys2Proof.Machine.execDec32 s
  | .enc32hex => Sys2Proof.Machine.execEnc32hex s
  | .dec32hex => Sys2Proof.Machine.execDec32hex s

end Sys2Proof.Machine
end

