-- ==== Sys2Proof/Machine/HostPort.lean ====
section
/-! DEFINITION. The host actions (10_state.md R24), one definition each, and the program lines that stand for several of
them (30_encoding.md R63). -/

namespace Sys2Proof.Machine

/-- The gate of R24: an action marked gated has no effect at all while the codec is busy (R129, R130, R43). -/
def gated (s : State) (effect : Host.Outcome State Fault Refusal) : Host.Outcome State Fault Refusal :=
  if busy s then .next s else effect

/-- `WR_CMD(c)`. -/
def actWrCmd (c : CmdWord) (s : State) : Host.Outcome State Fault Refusal := gated s (.next (s.setCmd c))

/-- `WR_INLEN(n)`; a length above `IN_CAP` is outside R24's range (log entry 10). -/
def actWrInLen (n : Nat) (s : State) : Host.Outcome State Fault Refusal :=
  gated s (if Capacities.fits s.caps.inCap n then .next (s.setInLen n) else .fault .lengthAboveCapacity)

/-- `WR_IN(a, v)`; an address at or above `IN_CAP` does not exist (R25; log entry 10). -/
def actWrIn (a : Nat) (v : Byte) (s : State) : Host.Outcome State Fault Refusal :=
  gated s (if Capacities.hasAddress s.caps.inCap a then .next (s.storeIn a v) else .fault .addressOutsideIn)

/-- `START` (R24). A message with a cell that holds no value is refused (R133; log entry 13). -/
def actStart (s : State) : Host.Outcome State Fault Refusal :=
  gated s (match message s with
    | some _ => .next s.begin
    | none => .refused .messageCellUnwritten)

/-- `RD_STATUS`: (`BUSY`, `DONE`, `ERR`); `ERR` is unspecified while busy (R24, U4; log entry 4). -/
def actRdStatus (s : State) : Host.Outcome State Fault Refusal :=
  if busy s then .next ((s.reply (.status true false (Config.freeBit s.draws))).draw)
  else .next (s.reply (.status false (doneView s) s.err))

/-- `RD_OUTLEN`; unspecified while busy (R24, R132, U4; log entry 4). -/
def actRdOutLen (s : State) : Host.Outcome State Fault Refusal :=
  if busy s then .next ((s.reply (.outLen (Config.freeLength s.draws))).draw)
  else .next (s.reply (.outLen s.outLen))

/-- The octet `RD_OUT(a)` is entitled to: `OUT[a]` when `ST = DONE` and `a < OUT_LEN` (R24, R132). -/
def resultOctet (a : Nat) (s : State) : Option Byte :=
  if doneView s && decide (a < s.outLen) then Memory.read s.outMem a else none

/-- `RD_OUT(a)`; at any other time or address the value is unspecified (R132, U3; log entries 4 and 14). -/
def actRdOut (a : Nat) (s : State) : Host.Outcome State Fault Refusal :=
  match resultOctet a s with
  | some v => .next (s.reply (.outOctet v))
  | none => .next ((s.reply (.outOctet (Config.freeOctet s.draws))).draw)

/-- `RD_CMD`, busy or not (R24). -/
def actRdCmd (s : State) : Host.Outcome State Fault Refusal := .next (s.reply (.cmd s.cmd))

/-- `RD_INLEN`, busy or not (R24). -/
def actRdInLen (s : State) : Host.Outcome State Fault Refusal := .next (s.reply (.inLen s.inLen))

/-- `RD_IN(a)`, busy or not; a cell never written reads as an unspecified value (R24, U1; log entry 4). -/
def actRdIn (a : Nat) (s : State) : Host.Outcome State Fault Refusal :=
  if Capacities.hasAddress s.caps.inCap a then
    match Memory.read s.inMem a with
    | some v => .next (s.reply (.inOctet v))
    | none => .next ((s.reply (.inOctet (Config.freeOctet s.draws))).draw)
  else .fault .addressOutsideIn

/-- `RESET`, in any state (R124, R126). -/
def actReset (s : State) : Host.Outcome State Fault Refusal := .next s.resetCodec

/-- One host action. -/
def hostAction (a : HostAction) (s : State) : Host.Outcome State Fault Refusal :=
  match a with
  | .wrCmd c => actWrCmd c s
  | .wrInLen n => actWrInLen n s
  | .wrIn a v => actWrIn a v s
  | .start => actStart s
  | .rdStatus => actRdStatus s
  | .rdOutLen => actRdOutLen s
  | .rdOut a => actRdOut a s
  | .rdCmd => actRdCmd s
  | .rdInLen => actRdInLen s
  | .rdIn a => actRdIn a s
  | .reset => actReset s

/-- `WR_IN a, s[a]`, `WR_IN a+1, s[a+1]`, ... -/
def storesFrom : Nat → List Byte → List HostLine
  | _, [] => []
  | a, v :: vs => .act (.wrIn a v) :: storesFrom (a + 1) vs

/-- The expansion of `LOAD s` (R63). -/
def loadLines (m : List Byte) : List HostLine := .act (.wrInLen m.length) :: storesFrom 0 m

/-- `RD_OUT 0`, `RD_OUT 1`, ..., `RD_OUT n-1`. -/
def readOutLines (n : Nat) : List HostLine := (List.range n).map fun a => .act (.rdOut a)

/-- The expansion of `encode32 s` and its three likes, by command (R63). -/
def callLines (i : Instr) (m : List Byte) : List HostLine :=
  [.act (.wrCmd (encode i)), .load m, .act .start, .wait, .result]

/-- The length the last read returned, if the last read was `RD_OUTLEN`. -/
def lastOutLen : List Reply → Option Nat
  | .outLen n :: _ => some n
  | _ => none

/-- The octets the last unbroken run of `RD_OUT` returned, newest first. -/
def outOctets : List Reply → List Byte
  | .outOctet v :: l => v :: outOctets l
  | _ => []

/-- The replies before the last unbroken run of `RD_OUT`. -/
def dropOutOctets : List Reply → List Reply
  | .outOctet _ :: l => dropOutOctets l
  | l => l

/-- What `RESULT` gives (R63, R64): (`ERR`, `OUT_LEN`, `OUT[0 .. OUT_LEN-1]`), read off the replies it has left. -/
def resultOf (l : List Reply) : Option (Bool × Nat × List Byte) :=
  match dropOutOctets l with
  | .outLen n :: .status _ _ e :: _ => some (e, n, (outOctets l).reverse)
  | _ => none

/-- Put program lines before the turns that are left. -/
def State.pushLines (s : State) (l : List HostLine) : State := s.setAgenda (l.map Turn.host ++ s.agenda)

/-- `WAIT` after one `RD_STATUS` (R63): go on when it returned `DONE = 1`; else the codec takes a step and the host polls again
(log entry 7). -/
def waitOn (s : State) : State :=
  match s.replies with
  | .status _ true _ :: _ => s
  | _ => s.setAgenda (.codec :: .host .wait :: s.agenda)

/-- One turn of the host, its line already taken off the agenda. A pseudo-action takes its expansion's place (log entry 7).
DESIGN CHOICE (log entry 21): R63 gives `COPYBACK` only with `ST = DONE` and a result that fits `IN`; outside that the model runs the
same expansion. -/
def hostTurn (l : HostLine) (s : State) : Host.Outcome State Fault Refusal :=
  match l with
  | .act a => hostAction a s
  | .load m => .next (s.pushLines (loadLines m))
  | .wait =>
    match actRdStatus s with
    | .next t => .next (waitOn t)
    | .fault r => .fault r
    | .refused r => .refused r
  | .result => .next (s.pushLines [.act .rdStatus, .act .rdOutLen, .readOut])
  | .readOut =>
    match lastOutLen s.replies with
    | some n => .next (s.pushLines (readOutLines n))
    | none => .next s
  | .copyback => .next (s.pushLines [.result, .loadBack])
  | .loadBack => .next (s.pushLines [.load (outOctets s.replies).reverse])
  | .call i m => .next (s.pushLines (callLines i m))

end Sys2Proof.Machine
end

