-- ==== Sys2Proof/Machine/Step.lean ====
section
/-! DEFINITION. One step of the machine: a turn of the host, or one codec step of the command in `CMD` (R9, R18, R43). -/

namespace Sys2Proof.Machine

/-- One step. The agenda says whose turn it is; when it is empty the codec goes on alone (R135; log entry 5). -/
def step (s : State) : Host.Outcome State Fault Refusal :=
  match s.agenda with
  | [] => exec (fetchCommand s) s
  | .codec :: rest => exec (fetchCommand s) (s.setAgenda rest)
  | .host l :: rest => hostTurn l (s.setAgenda rest)

/-- `s` with the command word `w` in `CMD` and its operation started, the next turn the codec's (log entry 12). -/
def State.withFetchWord (s : State) (nbits w : Nat) : State := s.startCommand (BitVec.ofNat 2 (w % 2 ^ nbits))

end Sys2Proof.Machine
end

