-- ==== Sys2Proof/Safety.lean ====
section
/-! DEFINITION. What holds in every state a run from reset reaches, in the terms the claims use: the buffers' form, the
lengths' bounds, and how far the operation in flight has come. -/

namespace Sys2Proof.Machine

/-- Both buffers are in canonical form and list only addresses that exist (R25). -/
structure BuffersSound (s : State) : Prop where
  inCanonical : Memory.wf s.inMem = true
  outCanonical : Memory.wf s.outMem = true
  inAddresses : ∀ c ∈ s.inMem, Capacities.hasAddress s.caps.inCap c.1 = true
  outAddresses : ∀ c ∈ s.outMem, Capacities.hasAddress s.caps.outCap c.1 = true

/-- The length registers stay within their buffers (R14, R16), and every cell below `OUT_LEN` holds a value. -/
structure LengthsSound (s : State) : Prop where
  inLenFits : Capacities.fits s.caps.inCap s.inLen = true
  rpFits : Capacities.fits s.caps.inCap s.rp = true
  dlenFits : Capacities.fits s.caps.inCap s.dlen = true
  outLenFits : Capacities.fits s.caps.outCap s.outLen = true
  outHeld : (Memory.readRange s.outMem 0 s.outLen).isSome = true

/-- An encode in `XFER`: whole groups have been taken, and `OUT` holds the text of what has been taken (R72). -/
structure EncodeUnderway (s : State) (m : List Byte) : Prop where
  rpWithin : s.rp ≤ s.inLen
  rpOnGroup : s.rp % 5 = 0 ∨ s.rp = s.inLen
  dlenClear : s.dlen = 0
  outHolds : Memory.readRange s.outMem 0 s.outLen = some (encodeMessage (alphabetOf s.cmd) (m.take s.rp))

/-- A decode in `XFER`: the text has passed the validator, whole blocks of its data portion have been taken, and `OUT` holds
their bytes (R97, R98). -/
structure DecodeUnderway (s : State) (m : List Byte) : Prop where
  validated : validText (alphabetOf s.cmd) m = true
  dlenIsData : s.dlen = dataLength m
  rpWithin : s.rp ≤ s.dlen
  rpOnBlock : s.rp % 8 = 0 ∨ s.rp = s.dlen
  outHolds : Memory.readRange s.outMem 0 s.outLen = decBlocks (alphabetOf s.cmd) (cuts 8 ((dataPortion m).take s.rp))

/-- The invariant of the machine. -/
structure Inv (s : State) : Prop where
  capacities : s.caps.wellFormed = true
  buffers : BuffersSound s
  lengths : LengthsSound s
  /-- `ERR = 1` only in `DONE`, with no result (R13, R108). -/
  errOnlyAtDone : s.err = true → s.st = .done ∧ s.outLen = 0
  /-- Nothing has run in `IDLE` (R12, R22). -/
  idleClear : s.st = .idle → s.rp = 0 ∧ s.dlen = 0 ∧ s.outLen = 0
  /-- `CHECK` is the first state of a decode (R12, R24). -/
  checkStart : s.st = .check → opIsDecode s = true ∧ s.rp = 0 ∧ s.dlen = 0 ∧ s.outLen = 0
  /-- A busy codec has its whole message (R133). -/
  messageHeld : busy s = true → (message s).isSome = true
  encodeUnderway : ∀ m, message s = some m → s.st = .xfer → opIsDecode s = false → EncodeUnderway s m
  decodeUnderway : ∀ m, message s = some m → s.st = .xfer → opIsDecode s = true → DecodeUnderway s m

/-- The codec of `t` is as the codec of `s`: every piece of state of R10. -/
structure SameCodec (s t : State) : Prop where
  cmd : t.cmd = s.cmd
  st : t.st = s.st
  err : t.err = s.err
  rp : t.rp = s.rp
  dlen : t.dlen = s.dlen
  inLen : t.inLen = s.inLen
  outLen : t.outLen = s.outLen
  inMem : t.inMem = s.inMem
  outMem : t.outMem = s.outMem

/-- The fields of the model that are not the codec's (R10) are as before. -/
structure SameSurroundings (s t : State) : Prop where
  caps : t.caps = s.caps
  agenda : t.agenda = s.agenda
  replies : t.replies = s.replies
  draws : t.draws = s.draws

/-- The host's next turn is the action `a`. -/
def hostNext (s : State) (a : HostAction) : Prop := ∃ rest, s.agenda = .host (.act a) :: rest

/-- `k` steps of the machine. -/
def runFor (k : Nat) (s : State) : Host.Outcome State Fault Refusal := Host.Core.run Sys2Proof.core k s

/-- A state that can be started: not busy, its message held and within `IN` (R24, R133). -/
structure MessageReady (s : State) (m : List Byte) : Prop where
  capacities : s.caps.wellFormed = true
  notBusy : busy s = false
  inLenFits : Capacities.fits s.caps.inCap s.inLen = true
  held : message s = some m

/-- A state about to be started, `START` the only turn left: from there the codec runs alone. -/
structure ReadyToStart (s : State) (m : List Byte) : Prop extends MessageReady s m where
  turns : s.agenda = [.host (.act .start)]

/-- `t` is at `DONE` of the operation that the next turn of `s`, a `START`, begins on the message `m`. Turns of the host stand
wherever the agenda puts them (R18; log entry 5), also after the end: the codec is busy up to a step `k` and at `DONE` from there on, so
that no `RESET` and no second operation lies between. -/
structure OperationRun (s : State) (m : List Byte) (t : State) : Prop where
  ready : MessageReady s m
  next : hostNext s .start
  ends : ∃ k n, k < n ∧ (∀ j, 1 ≤ j → j ≤ k → ∃ u, runFor j s = .next u ∧ busy u = true) ∧
    (∀ j, k < j → j ≤ n → ∃ u, runFor j s = .next u ∧ u.st = .done) ∧ runFor n s = .next t

/-- The result of a command on a message (R64): (`ERR`, `OUT_LEN`, `OUT[0 .. OUT_LEN-1]`). -/
def commandResult (i : Instr) (m : List Byte) : Bool × Nat × List Byte :=
  if i = .enc32 ∨ i = .enc32hex then
    (false, 8 * ceilDiv m.length 5, encodeMessage (alphabetOfInstr i) m)
  else
    match decodeMessage (alphabetOfInstr i) m with
    | some b => (false, b.length, b)
    | none => (true, 0, [])

/-- The state holds the result `r` (R64). -/
def HoldsResult (s : State) (r : Bool × Nat × List Byte) : Prop :=
  s.err = r.1 ∧ s.outLen = r.2.1 ∧ Memory.readRange s.outMem 0 s.outLen = some r.2.2

/-- How many codec steps the operation in flight still takes (R134), the current state's own last step included. -/
def stepsLeft (s : State) : Nat :=
  match s.st with
  | .idle => 0
  | .done => 0
  | .check =>
    match message s with
    | some t => if validText (alphabetOf s.cmd) t then ceilDiv (dataLength t) 8 + 2 else 1
    | none => 0
  | .xfer => if opIsDecode s then ceilDiv (s.dlen - s.rp) 8 + 1 else ceilDiv (s.inLen - s.rp) 5 + 1

end Sys2Proof.Machine
end

