-- ==== Sys2Proof/Certificates/Slice0/Obligations.lean ====
section
/-! DEFINITION. The statements for the provers, from the numbered rules of the spec. -/

open Sys2Proof Sys2Proof.Machine

/-! ## Commands and their encoding -/

/-- R46: the four command words. That every value of `CMD` is a defined command the spec derives from R46 (R47). -/
def Obligations.EveryCommandWordIsDefined : Prop :=
  (decodeCmd 0b00#2 = .enc32 ∧ decodeCmd 0b01#2 = .dec32 ∧ decodeCmd 0b10#2 = .enc32hex ∧ decodeCmd 0b11#2 = .dec32hex) ∧
  ∀ c : CmdWord, ∃ i : Instr, decodeCmd c = i ∧ encode i = c

/-- R45: bit 1 is `ALPHA`, bit 0 is `OP`, and there is no other field; with words written out from the format. -/
def Obligations.CommandFieldsSelectDirectionAndAlphabet : Prop :=
  ∀ c : CmdWord,
    (c.getLsbD 0 = false ↔ decodeCmd c = .enc32 ∨ decodeCmd c = .enc32hex) ∧
    (c.getLsbD 0 = true ↔ decodeCmd c = .dec32 ∨ decodeCmd c = .dec32hex) ∧
    (c.getLsbD 1 = false ↔ alphabetOfInstr (decodeCmd c) = .standard) ∧
    (c.getLsbD 1 = true ↔ alphabetOfInstr (decodeCmd c) = .hexExtended)

/-- Decoding and encoding agree, in the register and in the octet that carries a command word (log entry 11), and an octet with a bit
above the command's two is no command. -/
def Obligations.CommandsDecodeAsEncoded : Prop :=
  (∀ i : Instr, decodeCmd (encode i) = i) ∧
  (∀ (i : Instr) (rest : List Byte), decodeOctets (encodeOctets i ++ rest) = .ok (i, rest)) ∧
  (∀ (i : Instr) (nbits : Nat), 2 ≤ nbits → decodeTableWord nbits (encode i).toNat = some i) ∧
  (∀ (b : Byte) (rest : List Byte), 4 ≤ b.toNat → decodeOctets (b :: rest) = .error .bitsAboveCommand)

/-- R9, R18, R43: a step is a turn of one agent, and the codec's turn runs the command that `CMD` holds. The agenda is the model's (log
entry 5). -/
def Obligations.StepRunsTheDecodedCommand : Prop :=
  (∀ s : State, s.agenda = [] → step s = exec (decodeCmd s.cmd) s) ∧
  (∀ (s : State) (rest : List Turn), s.agenda = .codec :: rest →
    step s = exec (decodeCmd s.cmd) { s with agenda := rest }) ∧
  (∀ (s : State) (l : HostLine) (rest : List Turn), s.agenda = .host l :: rest →
    step s = hostTurn l { s with agenda := rest })

/-- The word the decoder reads as `i`, placed with `withFetchWord`, is run as `i` by the very next step, from the registers as `START`
leaves them (R24; log entry 12). -/
def Obligations.PlacedCommandRunsNext : Prop :=
  ∀ (s : State) (nbits w : Nat) (i : Instr), decodeTableWord nbits w = some i →
    step (s.withFetchWord nbits w) =
      exec i { s with cmd := encode i, rp := 0, dlen := 0, outLen := 0, err := false,
                      st := if i = .dec32 ∨ i = .dec32hex then .check else .xfer }

/-! ## Reset and the invariant -/

/-- R22: the state after reset. -/
def Obligations.ResetStateIsAsListed : Prop :=
  ∀ c : Capacities,
    (State.resetWith c).st = .idle ∧ seqCode (State.resetWith c).st = 0b00#2 ∧
    busy (State.resetWith c) = false ∧ doneView (State.resetWith c) = false ∧
    (State.resetWith c).err = false ∧ (State.resetWith c).cmd = 0b00#2 ∧ (State.resetWith c).inLen = 0 ∧
    (State.resetWith c).outLen = 0 ∧ (State.resetWith c).rp = 0 ∧ (State.resetWith c).dlen = 0 ∧
    ∀ a, Memory.read (State.resetWith c).inMem a = none ∧ Memory.read (State.resetWith c).outMem a = none

/-- The invariant holds after reset, whatever capacities R7 allows. -/
def Obligations.InvariantHoldsAtReset : Prop :=
  ∀ c : Capacities, c.wellFormed = true → Inv (State.resetWith c)

/-- Every step of the machine keeps the invariant: the buffers' form and bounds, `ERR` only at `DONE`, and how far the operation has
come (R12 to R16, R72, R97, R98, R108). -/
def Obligations.EveryStepKeepsInvariant : Prop :=
  ∀ s t : State, Inv s → step s = .next t → Inv t

/-- R18 (the spec derives it from the step table), R135: a busy codec is never stuck, and each of its steps brings the end of the operation one step nearer. -/
def Obligations.BusyCodecAlwaysSteps : Prop :=
  ∀ s : State, Inv s → busy s = true →
    ∃ t, exec (fetchCommand s) s = .next t ∧ stepsLeft s = stepsLeft t + 1

/-- R134 (the spec derives it from the step rules): every operation ends after at most `ceil(IN_LEN / 5) + 2` codec steps. -/
def Obligations.OperationEndsWithinBound : Prop :=
  ∀ s : State, Inv s → busy s = true → s.agenda = [] →
    stepsLeft s ≤ ceilDiv s.inLen 5 + 2 ∧
    ∃ t, runFor (stepsLeft s) s = .next t ∧ t.st = .done

/-- R7, R10, R14: the length registers fit the widths `LEN_W` and `OLEN_W`, which are the least that hold their capacities. -/
def Obligations.LengthRegistersFitTheirWidths : Prop :=
  (∀ s : State, Inv s → ∀ c, s.caps.inCap = some c →
    s.rp < 2 ^ Capacities.widthFor c ∧ s.dlen < 2 ^ Capacities.widthFor c ∧ s.inLen < 2 ^ Capacities.widthFor c) ∧
  (∀ s : State, Inv s → ∀ c, s.caps.outCap = some c → s.outLen < 2 ^ Capacities.widthFor c) ∧
  (∀ c w, c < 2 ^ w → Capacities.widthFor c ≤ w)

/-! ## The group encoder's functions -/

/-- R65: the group buffer. -/
def Obligations.GroupBufferPlacesBytes : Prop :=
  (∀ g : List Byte, 1 ≤ g.length → g.length ≤ 5 →
    (encBuf g).toNat = ((List.range g.length).map fun k => (g.getD k 0).toNat * 2 ^ (32 - 8 * k)).sum ∧
    (∀ k (h : k < g.length), (encBuf g).extractLsb' (32 - 8 * k) 8 = g[k]) ∧
    (∀ b, b < 40 - 8 * g.length → (encBuf g).getLsbD b = false)) ∧
  encBuf [0x66#8] = 0x6600000000#40 ∧
  encBuf [0x66#8, 0x6F#8, 0x6F#8, 0x62#8, 0x61#8] = 0x666F6F6261#40

/-- R66: the index lanes, as bit slices and as quotients. -/
def Obligations.IndexLanesSliceTheBuffer : Prop :=
  (∀ (B : GroupBuf) (j : Nat), j ≤ 7 →
    (encIdx B j).toNat = B.toNat / 2 ^ (35 - 5 * j) % 32 ∧
    ∀ b, b < 5 → (encIdx B j).getLsbD b = B.getLsbD (35 - 5 * j + b)) ∧
  (List.range 8).map (encIdx 0x6600000000#40) = [12#5, 24#5, 0#5, 0#5, 0#5, 0#5, 0#5, 0#5]

/-- R50: which byte bits each index lane holds (the table the spec derives from R49 and the lane positions); R67's criterion: lane `j`
is emitted exactly when it holds a data bit. -/
def Obligations.IndexLanesAreMadeOfByteBits : Prop :=
  (∀ n j, 1 ≤ n → n ≤ 5 → j ≤ 7 → (j < nData n ↔ ∃ b, 35 - 5 * j ≤ b ∧ b ≤ 39 - 5 * j ∧ 40 - 8 * n ≤ b)) ∧
  ∀ g0 g1 g2 g3 g4 : Byte,
    let B := encBuf [g0, g1, g2, g3, g4]
    encIdx B 0 = g0.extractLsb' 3 5 ∧
    encIdx B 1 = g0.extractLsb' 0 3 ++ g1.extractLsb' 6 2 ∧
    encIdx B 2 = g1.extractLsb' 1 5 ∧
    encIdx B 3 = g1.extractLsb' 0 1 ++ g2.extractLsb' 4 4 ∧
    encIdx B 4 = g2.extractLsb' 0 4 ++ g3.extractLsb' 7 1 ∧
    encIdx B 5 = g3.extractLsb' 2 5 ∧
    encIdx B 6 = g3.extractLsb' 0 2 ++ g4.extractLsb' 5 3 ∧
    encIdx B 7 = g4.extractLsb' 0 5

/-- R58: the final-group padding table, with the closed forms that reproduce it, which the spec derives there (from R67). -/
def Obligations.FinalGroupPaddingTable : Prop :=
  (nData 1 = 2 ∧ nPad 1 = 6) ∧ (nData 2 = 4 ∧ nPad 2 = 4) ∧ (nData 3 = 5 ∧ nPad 3 = 3) ∧
  (nData 4 = 7 ∧ nPad 4 = 1) ∧ (nData 5 = 8 ∧ nPad 5 = 0) ∧
  ∀ n, nData n = (8 * n + 4) / 5 ∧ nPad n = 8 - nData n

/-- R68: a group's eight text symbols. -/
def Obligations.GroupTextIsSymbolsThenPadding : Prop :=
  (∀ (α : Alphabet) (g : List Byte), 1 ≤ g.length → g.length ≤ 5 →
    (encGroup α g).length = 8 ∧
    (∀ j (h : j < (encGroup α g).length), (encGroup α g)[j] =
      if j < nData g.length then romEnc α (encIdx (encBuf g) j) else padOctet) ∧
    ∃ symbols, encGroup α g = symbols ++ List.replicate (nPad g.length) padOctet ∧
      symbols.length = nData g.length ∧ ∀ c ∈ symbols, c ∈ symbolsOf α) ∧
  encGroup .standard [0x66#8] = [0x4D#8, 0x59#8, 0x3D#8, 0x3D#8, 0x3D#8, 0x3D#8, 0x3D#8, 0x3D#8] ∧
  encGroup .hexExtended [0x66#8] = [0x43#8, 0x4F#8, 0x3D#8, 0x3D#8, 0x3D#8, 0x3D#8, 0x3D#8, 0x3D#8]

/-- R76: the two alphabets print the same indices at the same places and pad the same places. -/
def Obligations.AlphabetsDifferOnlyInPrintedSymbol : Prop :=
  ∀ (g : List Byte) (j : Nat), 1 ≤ g.length → g.length ≤ 5 → j < 8 →
    ∃ c d, (encGroup .standard g)[j]? = some c ∧ (encGroup .hexExtended g)[j]? = some d ∧
      (c = padOctet ↔ d = padOctet) ∧ romDec .standard c = romDec .hexExtended d

/-- R70: the empty payload, the text's length, and the counts of data and padding characters that the spec derives there from R67 and
R69. -/
def Obligations.EncodedLengthAndCounts : Prop :=
  ∀ (α : Alphabet) (m : List Byte),
    encodeMessage α [] = [] ∧
    (encodeMessage α m).length = 8 * ceilDiv m.length 5 ∧
    ((encodeMessage α m).filter (· != padOctet)).length = ceilDiv (8 * m.length) 5 ∧
    ((encodeMessage α m).filter (· == padOctet)).length =
      if m.length = 0 then 0 else nPad (m.length - 5 * (ceilDiv m.length 5 - 1))

/-- R77 (the spec derives it from R67 to R69): the shape of the encoder's output, and that the decoder's validation passes it, padded and stripped. -/
def Obligations.EncodedTextIsWellFormed : Prop :=
  ∀ (α : Alphabet) (m : List Byte),
    ∃ (d : List Byte) (p : Nat), encodeMessage α m = d ++ List.replicate p padOctet ∧
      (∀ c ∈ d, c ∈ symbolsOf α) ∧ (p = 0 ∨ p = 1 ∨ p = 3 ∨ p = 4 ∨ p = 6) ∧
      (encodeMessage α m).length % 8 = 0 ∧
      validText α (encodeMessage α m) = true ∧ validText α d = true

/-! ## The group decoder's functions -/

/-- R82, R55: the reverse mapping is the inverse of the alphabet, and padding maps to none. -/
def Obligations.ReverseMappingInvertsAlphabet : Prop :=
  ∀ α : Alphabet,
    (∀ i, romDec α (romEnc α i) = some i) ∧
    (∀ c i, romDec α c = some i ↔ romEnc α i = c) ∧
    romDec α padOctet = none

/-- R83: matching is exact: lower case, octets above ASCII and the symbols of the other alphabet only map to none. -/
def Obligations.MatchingIsCaseSensitiveAndExact : Prop :=
  (∀ (α : Alphabet) (c : Byte), 0x61 ≤ c.toNat → c.toNat ≤ 0x7A → romDec α c = none) ∧
  (∀ (α : Alphabet) (c : Byte), 0x80 ≤ c.toNat → romDec α c = none) ∧
  (∀ c ∈ [0x57#8, 0x58#8, 0x59#8, 0x5A#8], romDec .hexExtended c = none ∧ (romDec .standard c).isSome = true) ∧
  (∀ c ∈ [0x30#8, 0x31#8, 0x38#8, 0x39#8], romDec .standard c = none ∧ (romDec .hexExtended c).isSome = true) ∧
  (∀ (α : Alphabet) (c : Byte), (romDec α c).isSome = true ↔ c ∈ symbolsOf α) ∧
  (romDec .standard 0x41#8 = some 0#5 ∧ romDec .hexExtended 0x41#8 = some 10#5) ∧
  validText .standard [0x6D#8, 0x79#8, 0x3D#8, 0x3D#8, 0x3D#8, 0x3D#8, 0x3D#8, 0x3D#8] = false

/-- R84: the trailing run is the largest, and what stands before it. -/
def Obligations.TrailingRunIsTheLargest : Prop :=
  ∀ t : List Byte,
    trailingRun t ≤ t.length ∧
    (∀ c ∈ t.drop (t.length - trailingRun t), c = padOctet) ∧
    (∀ p, p ≤ t.length → (∀ c ∈ t.drop (t.length - p), c = padOctet) → p ≤ trailingRun t) ∧
    dataLength t = t.length - trailingRun t ∧
    (0 < dataLength t → t[dataLength t - 1]? ≠ some padOctet)

/-- R85, R86: the two checks of the validator, the second as R59's nine pairs. -/
def Obligations.ValidatorAcceptsNinePairsOfSymbols : Prop :=
  ∀ (α : Alphabet) (t : List Byte),
    validText α t = true ↔
      (∀ a, a < dataLength t → ∃ c i, t[a]? = some c ∧ romDec α c = some i) ∧
      (dataLength t % 8, trailingRun t) ∈
        ([(0, 0), (2, 6), (2, 0), (4, 4), (4, 0), (5, 3), (5, 0), (7, 1), (7, 0)] : List (Nat × Nat))

/-- R88: the validation block by block is the same (an equivalence the spec derives from R84 to R86). -/
def Obligations.BlockwiseValidationAgrees : Prop :=
  ∀ (α : Alphabet) (t : List Byte), validText α t = validBlockwise α t

/-- R94, R107: a text is `InvalidInput` exactly when a check fails. -/
def Obligations.DecodeFailsExactlyWhenValidationFails : Prop :=
  ∀ (α : Alphabet) (t : List Byte), decodeMessage α t = none ↔ validText α t = false

/-- R89: how many bytes an accepted text yields. -/
def Obligations.DecodedLengthFollowsDataLength : Prop :=
  (nBytes 0 = some 0 ∧ nBytes 2 = some 1 ∧ nBytes 4 = some 2 ∧ nBytes 5 = some 3 ∧ nBytes 7 = some 4) ∧
  (∀ r n, 0 < n → (nBytes r = some n ↔ n < 5 ∧ nData n = r)) ∧
  ∀ (α : Alphabet) (t b : List Byte), decodeMessage α t = some b →
    b.length = 5 * dataLength t / 8 ∧
    ∃ n, nBytes (dataLength t % 8) = some n ∧ b.length = 5 * (dataLength t / 8) + n

/-- R92 (the spec derives it), and the same for the data characters of a short group: a block decodes to the group it was made of. -/
def Obligations.BlockDecodesToItsGroup : Prop :=
  (∀ (α : Alphabet) (x b : List Byte), x.length = 8 → decBlock α x = some b → b.length = 5) ∧
  (∀ (α : Alphabet) (g : List Byte), g.length = 5 → decBlock α (encGroup α g) = some g) ∧
  (∀ (α : Alphabet) (g : List Byte), 1 ≤ g.length → g.length ≤ 5 →
    decBlock α ((encGroup α g).take (nData g.length)) = some g)

/-- R93: the dropped bits are not checked: two partial blocks whose indices differ in them only decode to the same bytes, and the
validator does not tell two texts apart by them. -/
def Obligations.DroppedBitsAreNotChecked : Prop :=
  (∀ (α : Alphabet) (x : List Byte) (i j : Index) (n k : Nat),
    nBytes (x.length + 1) = some n → k = 5 * (x.length + 1) - 8 * n → i.toNat / 2 ^ k = j.toNat / 2 ^ k →
    decBlock α (x ++ [romEnc α i]) = decBlock α (x ++ [romEnc α j])) ∧
  (∀ (α : Alphabet) (x : List Byte) (i j : Index) (p : Nat),
    validText α (x ++ romEnc α i :: List.replicate p padOctet) =
      validText α (x ++ romEnc α j :: List.replicate p padOctet)) ∧
  decodeMessage .standard [0x4D#8, 0x5A#8, 0x3D#8, 0x3D#8, 0x3D#8, 0x3D#8, 0x3D#8, 0x3D#8] = some [0x66#8] ∧
  decodeMessage .standard [0x4D#8, 0x59#8, 0x3D#8, 0x3D#8, 0x3D#8, 0x3D#8, 0x3D#8, 0x3D#8] = some [0x66#8]

/-- R95, R115: the empty text is accepted, and no other text and no other payload gives an empty result. -/
def Obligations.OnlyEmptyInputGivesEmptyResult : Prop :=
  (∀ (α : Alphabet) (t : List Byte), decodeMessage α t = some [] ↔ t = []) ∧
  (∀ (α : Alphabet) (m : List Byte), encodeMessage α m = [] ↔ m = [])

/-- R102: the round trip. -/
def Obligations.DecodeOfEncodeIsThePayload : Prop :=
  ∀ (α : Alphabet) (b : List Byte), decodeMessage α (encodeMessage α b) = some b

/-- R103: the same with the whole trailing run of padding removed, and every accepted text decodes as its stripped form does. -/
def Obligations.DecodeOfStrippedTextIsThePayload : Prop :=
  (∀ (α : Alphabet) (b : List Byte), decodeMessage α (dataPortion (encodeMessage α b)) = some b) ∧
  (∀ (α : Alphabet) (t b : List Byte), decodeMessage α t = some b → decodeMessage α (dataPortion t) = some b)

/-! ## The encode commands -/

/-- R72's step, for both encode commands: a group is taken, its eight symbols stand at `OUT_LEN`, and nothing else changes. -/
def Obligations.EncodeGroupStepTakesOneGroup : Prop :=
  ∀ (i : Instr) (s : State) (g : List Byte), i = .enc32 ∨ i = .enc32hex →
    s.st = .xfer → s.rp < s.inLen →
    Memory.readRange s.inMem s.rp (min 5 (s.inLen - s.rp)) = some g →
    Capacities.fits s.caps.outCap (s.outLen + 8) = true →
    ∃ t, exec i s = .next t ∧
      t.rp = s.rp + min 5 (s.inLen - s.rp) ∧ t.outLen = s.outLen + 8 ∧
      (∀ j (h : j < (encGroup (alphabetOfInstr i) g).length),
        Memory.read t.outMem (s.outLen + j) = some (encGroup (alphabetOfInstr i) g)[j]) ∧
      (∀ a, a < s.outLen ∨ s.outLen + 8 ≤ a → Memory.read t.outMem a = Memory.read s.outMem a) ∧
      t.st = s.st ∧ t.err = s.err ∧ t.dlen = s.dlen ∧ t.cmd = s.cmd ∧ t.inMem = s.inMem ∧ t.inLen = s.inLen ∧
      SameSurroundings s t

/-- R73: `ENC.END`, and that for the empty payload it is the first and only step of the operation. -/
def Obligations.EncodeEndStepOnlySetsDone : Prop :=
  (∀ (i : Instr) (s : State), i = .enc32 ∨ i = .enc32hex → s.st = .xfer → s.rp = s.inLen →
    exec i s = .next { s with st := .done }) ∧
  (∀ (s : State), ReadyToStart s [] → opIsDecode s = false →
    ∃ u t, runFor 1 s = .next u ∧ u.st = .xfer ∧ runFor 2 s = .next t ∧
      t.st = .done ∧ t.outLen = 0 ∧ t.err = false)

/-- R72's second half: after the `q`-th `ENC.GROUP` of an operation. -/
def Obligations.EncodeProgressesGroupByGroup : Prop :=
  ∀ (s : State) (m : List Byte) (q : Nat), ReadyToStart s m → opIsDecode s = false → q ≤ ceilDiv m.length 5 →
    ∃ t, runFor (1 + q) s = .next t ∧ t.st = .xfer ∧ t.rp = min (5 * q) t.inLen ∧ t.outLen = 8 * q ∧
      Memory.readRange t.outMem 0 (8 * q) = some ((encodeMessage (alphabetOf s.cmd) m).take (8 * q))

/-- R74, R75: a whole encode, from `START` to `DONE`: the codec alone, its steps, its result and what it leaves alone; and its result
whatever turns the host takes meanwhile (R18; the agenda is the model's, log entry 5). -/
def Obligations.EncodeOperationGivesTheText : Prop :=
  (∀ (i : Instr) (s : State) (m : List Byte), i = .enc32 ∨ i = .enc32hex →
    s.cmd = encode i → ReadyToStart s m →
    ∃ t, runFor (1 + (ceilDiv s.inLen 5 + 1)) s = .next t ∧
      t.st = .done ∧ t.err = false ∧ t.outLen = 8 * ceilDiv s.inLen 5 ∧
      Memory.readRange t.outMem 0 t.outLen = some (encodeMessage (alphabetOfInstr i) m) ∧
      (∀ a, t.outLen ≤ a → Memory.read t.outMem a = Memory.read s.outMem a) ∧
      t.rp = s.inLen ∧ t.dlen = 0 ∧ t.cmd = s.cmd ∧ t.inLen = s.inLen ∧ t.inMem = s.inMem ∧
      t.agenda = [] ∧ t.replies = s.replies ∧ t.draws = s.draws ∧ t.caps = s.caps) ∧
  (∀ (i : Instr) (s t : State) (m : List Byte), i = .enc32 ∨ i = .enc32hex → s.cmd = encode i → OperationRun s m t →
    t.err = false ∧ t.outLen = 8 * ceilDiv m.length 5 ∧
    Memory.readRange t.outMem 0 t.outLen = some (encodeMessage (alphabetOfInstr i) m) ∧
    ∀ a, t.outLen ≤ a → Memory.read t.outMem a = Memory.read s.outMem a)

/-- The frame of the encode commands: what any of their steps leaves alone (R17, R27, R36, R71, R72, R73). -/
def Obligations.EncodeStepFrame : Prop :=
  ∀ (i : Instr) (s t : State), i = .enc32 ∨ i = .enc32hex → exec i s = .next t →
    t.cmd = s.cmd ∧ t.inLen = s.inLen ∧ t.inMem = s.inMem ∧ t.dlen = s.dlen ∧ t.err = s.err ∧
    (t.st = s.st ∨ (s.st = .xfer ∧ t.st = .done)) ∧
    (¬(s.st = .xfer ∧ s.rp < s.inLen) → t.rp = s.rp ∧ t.outLen = s.outLen) ∧
    (∀ a, a < s.outLen ∨ s.outLen + (if s.st = .xfer ∧ s.rp < s.inLen then 8 else 0) ≤ a →
      Memory.read t.outMem a = Memory.read s.outMem a) ∧
    SameSurroundings s t

/-! ## The decode commands -/

/-- R97: `DEC.CHECK`, accepting or raising `InvalidInput` with the writes of R108. -/
def Obligations.DecodeCheckStepAcceptsOrRaises : Prop :=
  ∀ (i : Instr) (s : State) (t : List Byte), i = .dec32 ∨ i = .dec32hex → s.st = .check → message s = some t →
    (validText (alphabetOfInstr i) t = true → exec i s = .next { s with dlen := dataLength t, st := .xfer }) ∧
    (validText (alphabetOfInstr i) t = false → exec i s = .next { s with err := true, outLen := 0, st := .done })

/-- R98's step, for both decode commands: a block is taken, its bytes stand at `OUT_LEN`, and nothing else changes. -/
def Obligations.DecodeBlockStepTakesOneBlock : Prop :=
  ∀ (i : Instr) (s : State) (x bytes : List Byte), i = .dec32 ∨ i = .dec32hex →
    s.st = .xfer → s.rp < s.dlen → s.dlen ≤ s.inLen →
    Memory.readRange s.inMem s.rp (min 8 (s.dlen - s.rp)) = some x →
    decBlock (alphabetOfInstr i) x = some bytes →
    Capacities.fits s.caps.outCap (s.outLen + bytes.length) = true →
    ∃ t, exec i s = .next t ∧
      t.rp = s.rp + min 8 (s.dlen - s.rp) ∧ t.outLen = s.outLen + bytes.length ∧
      blockBytes (min 8 (s.dlen - s.rp)) = some bytes.length ∧
      (∀ j (h : j < bytes.length), Memory.read t.outMem (s.outLen + j) = some bytes[j]) ∧
      (∀ a, a < s.outLen ∨ s.outLen + bytes.length ≤ a → Memory.read t.outMem a = Memory.read s.outMem a) ∧
      t.st = s.st ∧ t.err = s.err ∧ t.dlen = s.dlen ∧ t.cmd = s.cmd ∧ t.inMem = s.inMem ∧ t.inLen = s.inLen ∧
      SameSurroundings s t

/-- R99: `DEC.END`, which leaves `ERR` as it is. From `RP = 0`, as `START` leaves it, a `DEC.CHECK` that accepts its text leads to a
state in which `DEC.END` is enabled, and taken next, for the empty text and for no other: for every other one `DEC.BLOCK` is (R18). -/
def Obligations.DecodeEndStepOnlySetsDone : Prop :=
  (∀ (i : Instr) (s : State), i = .dec32 ∨ i = .dec32hex → s.st = .xfer → s.rp = s.dlen →
    exec i s = .next { s with st := .done }) ∧
  (∀ (i : Instr) (s : State) (t : List Byte), i = .dec32 ∨ i = .dec32hex → s.st = .check → s.rp = 0 →
    message s = some t → validText (alphabetOfInstr i) t = true →
    ∃ u, exec i s = .next u ∧ u.err = s.err ∧ (u.st = .xfer ∧ u.rp = u.dlen ↔ t = []) ∧
      (t = [] → exec i u = .next { u with st := .done }) ∧
      (t ≠ [] → u.st = .xfer ∧ u.rp < u.dlen)) ∧
  (∀ (α : Alphabet) (t : List Byte), validText α t = true → (dataLength t = 0 ↔ t = []))

/-- R98's second half: after the `q`-th `DEC.BLOCK` of an operation. -/
def Obligations.DecodeProgressesBlockByBlock : Prop :=
  ∀ (s : State) (x : List Byte) (q : Nat), ReadyToStart s x → opIsDecode s = true →
    validText (alphabetOf s.cmd) x = true → q ≤ ceilDiv (dataLength x) 8 →
    ∃ t, runFor (2 + q) s = .next t ∧ t.st = .xfer ∧ t.dlen = dataLength x ∧ t.rp = min (8 * q) t.dlen ∧
      Memory.readRange t.outMem 0 t.outLen = decBlocks (alphabetOf s.cmd) ((cuts 8 (dataPortion x)).take q)

/-- R100, R101: a whole decode of an accepted text, from `START` to `DONE`: the codec alone, and its result whatever turns the host
takes meanwhile (R18; log entry 5). -/
def Obligations.DecodeOperationGivesTheBytes : Prop :=
  (∀ (i : Instr) (s : State) (x b : List Byte), i = .dec32 ∨ i = .dec32hex →
    s.cmd = encode i → ReadyToStart s x → decodeMessage (alphabetOfInstr i) x = some b →
    ∃ t, runFor (1 + (1 + ceilDiv (dataLength x) 8 + 1)) s = .next t ∧
      t.st = .done ∧ t.err = false ∧ t.outLen = b.length ∧
      Memory.readRange t.outMem 0 t.outLen = some b ∧
      (∀ a, t.outLen ≤ a → Memory.read t.outMem a = Memory.read s.outMem a) ∧
      t.rp = dataLength x ∧ t.dlen = dataLength x ∧ t.cmd = s.cmd ∧ t.inLen = s.inLen ∧ t.inMem = s.inMem ∧
      t.agenda = [] ∧ t.replies = s.replies ∧ t.draws = s.draws ∧ t.caps = s.caps) ∧
  (∀ (i : Instr) (s t : State) (x b : List Byte), i = .dec32 ∨ i = .dec32hex → s.cmd = encode i →
    decodeMessage (alphabetOfInstr i) x = some b → OperationRun s x t →
    t.err = false ∧ t.outLen = b.length ∧ Memory.readRange t.outMem 0 t.outLen = some b ∧
    ∀ a, t.outLen ≤ a → Memory.read t.outMem a = Memory.read s.outMem a)

/-- R100, R101, R108, R109: a whole decode of a rejected text: one codec step, `ERR = 1`, no result, and nothing else changed; and no
cell of `OUT` is written whatever turns the host takes meanwhile (R18, R35; log entry 5). -/
def Obligations.RejectedDecodeHasNoOtherEffect : Prop :=
  (∀ (i : Instr) (s : State) (x : List Byte), i = .dec32 ∨ i = .dec32hex →
    s.cmd = encode i → ReadyToStart s x → decodeMessage (alphabetOfInstr i) x = none →
    runFor 2 s = .next { s with st := .done, err := true, outLen := 0, rp := 0, dlen := 0, agenda := [] }) ∧
  (∀ (i : Instr) (s t : State) (x : List Byte), i = .dec32 ∨ i = .dec32hex → s.cmd = encode i →
    decodeMessage (alphabetOfInstr i) x = none → OperationRun s x t →
    t.err = true ∧ t.outLen = 0 ∧ t.outMem = s.outMem)

/-- The frame of the decode commands: what any of their steps leaves alone (R17, R27, R36, R97 to R99). -/
def Obligations.DecodeStepFrame : Prop :=
  ∀ (i : Instr) (s t : State), i = .dec32 ∨ i = .dec32hex → exec i s = .next t →
    t.cmd = s.cmd ∧ t.inLen = s.inLen ∧ t.inMem = s.inMem ∧
    (s.st ≠ .check → t.dlen = s.dlen ∧ t.err = s.err ∧ (t.st = s.st ∨ (s.st = .xfer ∧ t.st = .done))) ∧
    (¬(s.st = .xfer ∧ s.rp < s.dlen) → t.rp = s.rp ∧ t.outMem = s.outMem ∧ (s.st ≠ .check → t.outLen = s.outLen)) ∧
    (s.st = .xfer → s.rp < s.dlen → ∀ n, blockBytes (min 8 (s.dlen - s.rp)) = some n →
      ∀ a, a < s.outLen ∨ s.outLen + n ≤ a → Memory.read t.outMem a = Memory.read s.outMem a) ∧
    SameSurroundings s t

/-- R18: in `IDLE` and `DONE` no step of any command is enabled and the codec waits (log entry 8). -/
def Obligations.CodecWaitsWhileNotBusy : Prop :=
  ∀ (i : Instr) (s : State), busy s = false → exec i s = .next s

/-- Where a codec step stops, by name: busy states without a row in R18's table; reads past the message or over a cell that holds no
value, in `ENC.GROUP`, `DEC.CHECK` and `DEC.BLOCK` (R8, R133); results that do not fit `OUT` (R8); a block outside `DecBlock`'s domain
(R90). The stops are the model's, for states no run from reset reaches (log entry 9). -/
def Obligations.StepsOutsideTheTableStopByName : Prop :=
  (∀ (i : Instr) (s : State), i = .enc32 ∨ i = .enc32hex →
    (s.st = .check ∨ (s.st = .xfer ∧ s.inLen < s.rp) → exec i s = .fault .noStepEnabled) ∧
    (s.st = .xfer → ∀ a, s.rp ≤ a → a < s.rp + min 5 (s.inLen - s.rp) → Memory.read s.inMem a = none →
      exec i s = .refused .messageCellUnwritten) ∧
    (s.st = .xfer → s.rp < s.inLen → (Memory.readRange s.inMem s.rp (min 5 (s.inLen - s.rp))).isSome = true →
      Capacities.fits s.caps.outCap (s.outLen + 8) = false → exec i s = .fault .outOverflow)) ∧
  (∀ (i : Instr) (s : State), i = .dec32 ∨ i = .dec32hex →
    (s.st = .xfer → s.dlen < s.rp → exec i s = .fault .noStepEnabled) ∧
    (s.st = .check → message s = none → exec i s = .refused .messageCellUnwritten) ∧
    (s.st = .xfer → s.rp < s.dlen →
      (s.inLen < s.rp + min 8 (s.dlen - s.rp) → exec i s = .fault .readPastMessage) ∧
      (s.rp + min 8 (s.dlen - s.rp) ≤ s.inLen →
        (∀ a, s.rp ≤ a → a < s.rp + min 8 (s.dlen - s.rp) → Memory.read s.inMem a = none →
          exec i s = .refused .messageCellUnwritten) ∧
        ∀ x, Memory.readRange s.inMem s.rp (min 8 (s.dlen - s.rp)) = some x →
          (decBlock (alphabetOfInstr i) x = none → exec i s = .fault .blockOutsideDomain) ∧
          ∀ bytes, decBlock (alphabetOfInstr i) x = some bytes →
            Capacities.fits s.caps.outCap (s.outLen + bytes.length) = false → exec i s = .fault .outOverflow)))

/-- R21: the result of an operation is a function of `CMD`, `IN_LEN` and the message. First the step that ends an operation: from every
busy state with the invariant, whoever takes the step, the result is the command's on the message as it stands, which
MessageIsFrozenWhileBusy keeps from `START` on. Then two whole operations, the host's turns anywhere between and after their codec
steps (R18; the agenda is the model's, log entry 5), from states that may differ in everything but `CMD` and the message. -/
def Obligations.ResultDependsOnMessageOnly : Prop :=
  (∀ (s t : State) (m : List Byte), Inv s → busy s = true → message s = some m → ¬ hostNext s .reset → step s = .next t →
    (busy t = true ∨ t.st = .done) ∧ (t.st = .done → HoldsResult t (commandResult (decodeCmd s.cmd) m))) ∧
  (∀ (s s' t t' : State) (m : List Byte), OperationRun s m t → OperationRun s' m t' → s.cmd = s'.cmd →
    t.err = t'.err ∧ t.outLen = t'.outLen ∧
      Memory.readRange t.outMem 0 t.outLen = Memory.readRange t'.outMem 0 t'.outLen)

/-! ## The host's actions -/

/-- R24, R129, R43: a gated action taken while the codec is busy has no effect at all. That it has none also where its argument is
outside R24's range is the model's choice (log entry 10). -/
def Obligations.GatedActionsAreDroppedWhileBusy : Prop :=
  ∀ (s : State) (a : HostAction) (rest : List Turn), busy s = true → s.agenda = .host (.act a) :: rest →
    (a = .start ∨ (∃ c, a = .wrCmd c) ∨ (∃ n, a = .wrInLen n) ∨ ∃ b v, a = .wrIn b v) →
    step s = .next { s with agenda := rest }

/-- R24: what `WR_CMD`, `WR_INLEN` and `WR_IN` do when the codec is not busy. -/
def Obligations.HostWritesTakeEffectWhenNotBusy : Prop :=
  ∀ (s : State) (rest : List Turn), busy s = false →
    (∀ c, s.agenda = .host (.act (.wrCmd c)) :: rest → step s = .next { s with cmd := c, agenda := rest }) ∧
    (∀ n, s.agenda = .host (.act (.wrInLen n)) :: rest → Capacities.fits s.caps.inCap n = true →
      step s = .next { s with inLen := n, agenda := rest }) ∧
    (∀ a v, s.agenda = .host (.act (.wrIn a v)) :: rest → Capacities.hasAddress s.caps.inCap a = true →
      ∃ t, step s = .next t ∧ Memory.read t.inMem a = some v ∧
        (∀ b, b ≠ a → Memory.read t.inMem b = Memory.read s.inMem b) ∧
        t = { s with inMem := t.inMem, agenda := rest })

/-- `WR_INLEN` and `WR_IN` (while not busy) and `RD_IN` (always) with an argument outside R24's range: the model stops by name (log
entry 10). The two writes while busy are GatedActionsAreDroppedWhileBusy's; `RD_OUT`, which has a range too, completes with a free value
outside it (log entry 14), which HostReadsComplete says. -/
def Obligations.WrInLenWrInRdInOutsideRangeStop : Prop :=
  ∀ s : State,
    (∀ n, Capacities.fits s.caps.inCap n = false → busy s = false →
      hostAction (.wrInLen n) s = .fault .lengthAboveCapacity) ∧
    (∀ a v, Capacities.hasAddress s.caps.inCap a = false → busy s = false →
      hostAction (.wrIn a v) s = .fault .addressOutsideIn) ∧
    (∀ a, Capacities.hasAddress s.caps.inCap a = false → hostAction (.rdIn a) s = .fault .addressOutsideIn)

/-- R24: `START` when the codec is not busy and the message is held. -/
def Obligations.StartBeginsTheOperation : Prop :=
  ∀ (s : State) (rest : List Turn), busy s = false → s.agenda = .host (.act .start) :: rest →
    (∀ a, a < s.inLen → ∃ v, Memory.read s.inMem a = some v) →
    step s = .next { s with rp := 0, dlen := 0, outLen := 0, err := false, agenda := rest,
                            st := if s.cmd.getLsbD 0 then .check else .xfer }

/-- R133: no cell of `IN` holds a value after `RESET`, a `START` over a cell that holds none is refused, and an operation keeps the
cells' values. -/
def Obligations.StartOverUnwrittenCellIsRefused : Prop :=
  (∀ (s t : State), hostAction .reset s = .next t → ∀ a, Memory.read t.inMem a = none) ∧
  (∀ (s : State) (a : Nat), busy s = false → hostNext s .start → a < s.inLen → Memory.read s.inMem a = none →
    step s = .refused .messageCellUnwritten) ∧
  (∀ (i : Instr) (s t : State), exec i s = .next t → ∀ a, Memory.read t.inMem a = Memory.read s.inMem a)

/-- R124, R126: `RESET`, in any state, also in the middle of an operation. That it leaves the turns that are left and the host's replies
is the model's choice (log entries 5 and 6), and so is what else stands beside the codec (log entries 1 and 4). -/
def Obligations.ResetActsInAnyState : Prop :=
  ∀ (s : State) (rest : List Turn), s.agenda = .host (.act .reset) :: rest →
    ∃ t, step s = .next t ∧ t.st = .idle ∧ t.err = false ∧ t.cmd = 0b00#2 ∧ t.inLen = 0 ∧ t.outLen = 0 ∧
      t.rp = 0 ∧ t.dlen = 0 ∧ busy t = false ∧ doneView t = false ∧
      (∀ a, Memory.read t.inMem a = none ∧ Memory.read t.outMem a = none) ∧
      t.caps = s.caps ∧ t.agenda = rest ∧ t.replies = s.replies ∧ t.draws = s.draws

/-- R36: no read has a side effect on the codec, and the codec writes only `OUT`, `OUT_LEN`, `RP`, `DLEN`, `ST` and `ERR`. -/
def Obligations.ReadsHaveNoSideEffect : Prop :=
  (∀ (s t : State) (a : HostAction),
    (a = .rdStatus ∨ a = .rdOutLen ∨ (∃ b, a = .rdOut b) ∨ a = .rdCmd ∨ a = .rdInLen ∨ ∃ b, a = .rdIn b) →
    hostAction a s = .next t → SameCodec s t ∧ t.caps = s.caps ∧ t.agenda = s.agenda) ∧
  (∀ (i : Instr) (s t : State), exec i s = .next t → t.cmd = s.cmd ∧ t.inLen = s.inLen ∧ t.inMem = s.inMem)

/-- R24, R40, R132: what the host reads when the codec is not busy: the status and `OUT_LEN` in `IDLE` and `DONE`, the result at `DONE`.
That `ERR` reads as 0 in `IDLE` is the model's reading (log entry 20). -/
def Obligations.ResultIsReadableAtDone : Prop :=
  ∀ s : State, Inv s →
    (s.st = .idle →
      hostAction .rdStatus s = .next { s with replies := .status false false false :: s.replies } ∧
      hostAction .rdOutLen s = .next { s with replies := .outLen 0 :: s.replies }) ∧
    (s.st = .done →
      hostAction .rdStatus s = .next { s with replies := .status false true s.err :: s.replies } ∧
      hostAction .rdOutLen s = .next { s with replies := .outLen s.outLen :: s.replies } ∧
      ∀ a, a < s.outLen → ∃ v, Memory.read s.outMem a = some v ∧
        hostAction (.rdOut a) s = .next { s with replies := .outOctet v :: s.replies })

/-- R24, R132: the reads of stored values return them, busy or not, and a read whose value is unspecified still completes, with one
reply of its kind. That value is the model's free value (log entry 4): the statement holds for every value. -/
def Obligations.HostReadsComplete : Prop :=
  ∀ s : State,
    hostAction .rdCmd s = .next { s with replies := .cmd s.cmd :: s.replies } ∧
    hostAction .rdInLen s = .next { s with replies := .inLen s.inLen :: s.replies } ∧
    (∀ a v, Capacities.hasAddress s.caps.inCap a = true → Memory.read s.inMem a = some v →
      hostAction (.rdIn a) s = .next { s with replies := .inOctet v :: s.replies }) ∧
    (busy s = true → ∃ e n d d', hostAction .rdStatus s = .next { s with replies := .status true false e :: s.replies, draws := d } ∧
      hostAction .rdOutLen s = .next { s with replies := .outLen n :: s.replies, draws := d' }) ∧
    (∀ a, s.st ≠ .done ∨ s.outLen ≤ a →
      ∃ v d, hostAction (.rdOut a) s = .next { s with replies := .outOctet v :: s.replies, draws := d }) ∧
    (∀ a, Capacities.hasAddress s.caps.inCap a = true → Memory.read s.inMem a = none →
      ∃ v d, hostAction (.rdIn a) s = .next { s with replies := .inOctet v :: s.replies, draws := d })

/-- R130: the message is frozen during an operation, whatever the host does but `RESET`. -/
def Obligations.MessageIsFrozenWhileBusy : Prop :=
  ∀ s t : State, busy s = true → ¬ hostNext s .reset → step s = .next t →
    t.cmd = s.cmd ∧ t.inLen = s.inLen ∧ t.inMem = s.inMem

/-- R112: `ERR` and `DONE` stay until `START` or `RESET`, and `START` clears `ERR` and begins the next operation. -/
def Obligations.ErrorStatusPersistsUntilStartOrReset : Prop :=
  (∀ s t : State, s.st = .done → ¬ hostNext s .start → ¬ hostNext s .reset → step s = .next t →
    t.st = .done ∧ t.err = s.err ∧ t.outLen = s.outLen ∧ t.outMem = s.outMem) ∧
  (∀ s t : State, s.st = .done → hostNext s .start → step s = .next t → t.err = false ∧ busy t = true) ∧
  (∀ s t : State, hostNext s .reset → step s = .next t → t.err = false ∧ t.st = .idle)

/-! ## Host programs -/

/-- R63: `LOAD s` puts the message into `IN` and its length into `IN_LEN`, and changes nothing else. -/
def Obligations.LoadPlacesTheMessage : Prop :=
  ∀ (s : State) (m : List Byte), busy s = false → Capacities.fits s.caps.inCap m.length = true →
    s.agenda = [.host (.load m)] →
    ∃ t, runFor (m.length + 2) s = .next t ∧ message t = some m ∧ t.inLen = m.length ∧
      (∀ a, m.length ≤ a → Memory.read t.inMem a = Memory.read s.inMem a) ∧
      t = { s with inLen := m.length, inMem := t.inMem, agenda := [] }

/-- R63: `COPYBACK` at `DONE` makes the result the next message, when it fits `IN`. -/
def Obligations.CopybackMakesTheResultTheMessage : Prop :=
  ∀ s : State, Inv s → s.st = .done → Capacities.fits s.caps.inCap s.outLen = true → s.agenda = [.host .copyback] →
    ∃ k t, runFor k s = .next t ∧ t.agenda = [] ∧ t.inLen = s.outLen ∧
      message t = Memory.readRange s.outMem 0 s.outLen ∧
      t.st = .done ∧ t.err = s.err ∧ t.outLen = s.outLen ∧ t.outMem = s.outMem ∧ t.cmd = s.cmd

/-- R63, R64: the pseudo-actions `encode32`, `decode32`, `encode32hex`, `decode32hex` from reset give the function's result. -/
def Obligations.CallsGiveTheFunctionsResult : Prop :=
  ∀ (c : Capacities) (m : List Byte), c.wellFormed = true → Capacities.fits c.inCap m.length = true →
    ∀ i : Instr, ∃ k t, runFor k { State.resetWith c with agenda := [.host (.call i m)] } = .next t ∧ t.agenda = [] ∧
      resultOf t.replies = some (commandResult i m)
end

