-- ==== Sys2Proof/Laws/Codec.lean ====
section
/-! SUPPORT. Small laws of the tables, the lanes and the cuts. -/

namespace Sys2Proof.Machine

@[simp] theorem symbolsOf_length (α : Alphabet) : (symbolsOf α).length = 32 := by cases α <;> rfl

theorem ceilDiv_five (n : Nat) : ceilDiv n 5 = (n + 4) / 5 := rfl

theorem ceilDiv_eight (n : Nat) : ceilDiv n 8 = (n + 7) / 8 := rfl

@[simp] theorem encGroup_length (α : Alphabet) (g : List Byte) : (encGroup α g).length = 8 := by simp [encGroup]

@[simp] theorem firstBytes_length (B : GroupBuf) (n : Nat) : (firstBytes B n).length = n := by simp [firstBytes]

@[simp] theorem cuts_nil (w : Nat) (hw : 0 < w) : cuts w [] = [] := by
  have : ceilDiv 0 w = 0 := Nat.div_eq_of_lt (by omega)
  simp [cuts, this]

theorem cut_length_le (w q : Nat) (m : List Byte) : (cut w q m).length ≤ w := by
  unfold cut; rw [List.length_take]; omega

/-- The first cut and the rest of a message that is not empty. -/
theorem cuts_cons (w : Nat) (hw : 0 < w) (m : List Byte) (hm : m ≠ []) :
    cuts w m = m.take w :: cuts w (m.drop w) := by
  have hl : 0 < m.length := List.length_pos_iff.2 hm
  have hc : ceilDiv m.length w = ceilDiv (m.length - w) w + 1 := by
    unfold ceilDiv
    rcases Nat.lt_or_ge w m.length with h | h
    · rw [show m.length + w - 1 = (m.length - w + w - 1) + w by omega, Nat.add_div_right _ hw]
    · rw [show m.length - w = 0 by omega, Nat.div_eq_of_lt (a := 0 + w - 1) (by omega)]
      rw [show m.length + w - 1 = (m.length - 1) + w by omega, Nat.add_div_right _ hw,
        Nat.div_eq_of_lt (a := m.length - 1) (by omega)]
  unfold cuts
  rw [hc, List.range_succ_eq_map, List.map_cons, List.map_map, List.length_drop]
  congr 1
  refine List.map_congr_left fun q _ => ?_
  simp only [cut, Function.comp, List.drop_drop, Nat.succ_eq_add_one, Nat.mul_add, Nat.mul_one, Nat.add_comm]

/-- Cutting goes over a boundary of the cuts. -/
theorem cuts_append (w : Nat) (hw : 0 < w) (x y : List Byte) (hx : x.length % w = 0) :
    cuts w (x ++ y) = cuts w x ++ cuts w y := by
  induction hn : x.length using Nat.strong_induction_on generalizing x with
  | _ n ih =>
    rcases List.eq_nil_or_concat x with rfl | ⟨x', c, hxc⟩
    · simp [hw]
    · have hne : x ≠ [] := by rw [hxc]; simp
      have hl : 0 < x.length := List.length_pos_iff.2 hne
      have hwl : w ≤ x.length := Nat.le_of_dvd hl (Nat.dvd_of_mod_eq_zero hx)
      have hd : (x.drop w).length % w = 0 := by
        rw [List.length_drop]
        exact (Nat.dvd_sub (Nat.dvd_of_mod_eq_zero hx) (Nat.dvd_refl w)) |> Nat.mod_eq_zero_of_dvd
      rw [cuts_cons w hw (x ++ y) (by simp [hne]), cuts_cons w hw x hne, List.take_append_of_le_length hwl,
        List.drop_append_of_le_length hwl, ih (x.drop w).length (by rw [List.length_drop]; omega) _ hd rfl]
      rfl

/-- A message no longer than one cut is one cut. -/
theorem cuts_single (w : Nat) (hw : 0 < w) (x : List Byte) (hne : x ≠ []) (hl : x.length ≤ w) : cuts w x = [x] := by
  rw [cuts_cons w hw x hne, List.take_of_length_le hl, List.drop_of_length_le hl, cuts_nil w hw]

@[simp] theorem encodeMessage_nil (α : Alphabet) : encodeMessage α [] = [] := by simp [encodeMessage]

/-- One more group's text (R69, R72). -/
theorem encodeMessage_append_group (α : Alphabet) (x g : List Byte) (hx : x.length % 5 = 0) (hne : g ≠ [])
    (hl : g.length ≤ 5) : encodeMessage α (x ++ g) = encodeMessage α x ++ encGroup α g := by
  simp [encodeMessage, cuts_append 5 (by omega) x g hx, cuts_single 5 (by omega) g hne hl]

theorem encodeMessage_length (α : Alphabet) (m : List Byte) :
    (encodeMessage α m).length = 8 * (cuts 5 m).length := by
  unfold encodeMessage
  induction cuts 5 m with
  | nil => rfl
  | cons c cs ih => simp only [List.flatMap_cons, List.length_append, encGroup_length, ih, List.length_cons]; omega

@[simp] theorem cuts_length (w : Nat) (m : List Byte) : (cuts w m).length = ceilDiv m.length w := by simp [cuts]

/-- Blocks decoded in two parts (R94). -/
theorem decBlocks_append (α : Alphabet) {xs ys : List (List Byte)} {x y : List Byte}
    (hx : decBlocks α xs = some x) (hy : decBlocks α ys = some y) : decBlocks α (xs ++ ys) = some (x ++ y) := by
  induction xs generalizing x with
  | nil => cases hx; simpa using hy
  | cons b bs ih =>
    simp only [decBlocks] at hx
    split at hx
    · next u v hu hv => cases hx; simp [decBlocks, hu, ih hv]
    · cases hx

/-- One more block's bytes (R94, R98). -/
theorem decBlocks_append_block (α : Alphabet) {x b bytes r : List Byte} (hx : x.length % 8 = 0) (hne : b ≠ [])
    (hl : b.length ≤ 8) (hr : decBlocks α (cuts 8 x) = some r) (hb : decBlock α b = some bytes) :
    decBlocks α (cuts 8 (x ++ b)) = some (r ++ bytes) := by
  rw [cuts_append 8 (by omega) x b hx, cuts_single 8 (by omega) b hne hl]
  exact decBlocks_append α hr (by simp [decBlocks, hb])

theorem indicesOf_length {α : Alphabet} {s : List Byte} {l : List Index} (h : indicesOf α s = some l) :
    l.length = s.length := by
  induction s generalizing l with
  | nil => simp only [indicesOf, Option.some.injEq] at h; subst h; rfl
  | cons c cs ih =>
    simp only [indicesOf] at h
    split at h
    · next i is _ h2 => cases h; simp [ih h2]
    · cases h

/-- Characters have indices exactly when all of them are symbols (R85, R90). -/
theorem indicesOf_isSome (α : Alphabet) (s : List Byte) : (indicesOf α s).isSome = allSymbols α s := by
  induction s with
  | nil => rfl
  | cons c cs ih =>
    simp only [indicesOf, allSymbols, List.all_cons] at ih ⊢
    rw [← ih]
    cases romDec α c <;> cases indicesOf α cs <;> rfl

/-- A block of symbols in the domain decodes, to as many bytes as R91 gives it. -/
theorem decBlock_eq_some {α : Alphabet} {s : List Byte} {n : Nat} (hs : allSymbols α s = true)
    (hn : blockBytes s.length = some n) : ∃ b, decBlock α s = some b ∧ b.length = n := by
  have h := indicesOf_isSome α s
  rw [hs, Option.isSome_iff_exists] at h
  obtain ⟨l, hl⟩ := h
  exact ⟨firstBytes (decBuf l) n, by simp [decBlock, hl, hn], firstBytes_length _ n⟩

theorem decBlock_length {α : Alphabet} {s b : List Byte} (h : decBlock α s = some b) :
    blockBytes s.length = some b.length := by
  unfold decBlock at h
  split at h
  · next l n _ hn => cases h; rw [hn]; simp
  · cases h

/-- The message's command fields and the decoded command agree on the direction (R45). -/
theorem fetchCommand_of_op (s : State) :
    (opIsDecode s = false → fetchCommand s = .enc32 ∨ fetchCommand s = .enc32hex) ∧
    (opIsDecode s = true → fetchCommand s = .dec32 ∨ fetchCommand s = .dec32hex) := by
  unfold opIsDecode fetchCommand decodeCmd
  constructor <;> intro h <;> rw [h] <;> cases s.cmd.getLsbD 1 <;> simp

/-- The alphabet `CMD.ALPHA` selects is the alphabet of the command `CMD` holds (R11, R46). -/
theorem alphabetOf_cmd (s : State) : alphabetOfInstr (fetchCommand s) = alphabetOf s.cmd := by
  unfold alphabetOf fetchCommand decodeCmd
  cases s.cmd.getLsbD 1 <;> cases s.cmd.getLsbD 0 <;> rfl

end Sys2Proof.Machine
end

