-- ==== Sys2Proof/Laws/Memory.lean ====
section
/-! SUPPORT. The laws of the buffers: a read after a write, what a write leaves alone, and the canonical form. -/

namespace Sys2Proof.Machine

@[simp] theorem Memory.read_nil (a : Nat) : Memory.read [] a = none := rfl

@[simp] theorem Memory.readRange_zero (m : Memory) (a : Nat) : Memory.readRange m a 0 = some [] := rfl

@[simp] theorem Memory.writeRange_nil (m : Memory) (a : Nat) : Memory.writeRange m a [] = m := rfl

theorem Memory.wf_cons (k : Nat) (v : Byte) (m : Memory) :
    Memory.wf ((k, v) :: m) = true ↔ (∀ c ∈ m, k < c.1) ∧ Memory.wf m = true := by
  simp [Memory.wf]

theorem Memory.mem_write {m : Memory} {a : Nat} {v : Byte} {c : Host.Cell} (h : c ∈ Memory.write m a v) :
    c = (a, v) ∨ c ∈ m := by
  induction m with
  | nil => simpa [Memory.write] using h
  | cons d m ih =>
    obtain ⟨k, w⟩ := d
    simp only [Memory.write] at h
    split at h
    · simpa using h
    · split at h
      · rcases List.mem_cons.1 h with h | h
        · exact .inl h
        · exact .inr (List.mem_cons_of_mem _ h)
      · rcases List.mem_cons.1 h with h | h
        · exact .inr (h ▸ List.mem_cons_self)
        · exact (ih h).imp_right (List.mem_cons_of_mem _)

/-- Every write keeps the canonical form. -/
theorem Memory.write_wf {m : Memory} (h : Memory.wf m = true) (a : Nat) (v : Byte) :
    Memory.wf (Memory.write m a v) = true := by
  induction m with
  | nil => rfl
  | cons d m ih =>
    obtain ⟨k, w⟩ := d
    obtain ⟨hk, hm⟩ := (Memory.wf_cons k w m).1 h
    simp only [Memory.write]
    split
    · next hlt =>
      refine (Memory.wf_cons _ _ _).2 ⟨fun c hc => ?_, h⟩
      rcases List.mem_cons.1 hc with rfl | hc
      · exact hlt
      · exact hlt.trans (hk c hc)
    · split
      · next he => subst he; exact (Memory.wf_cons _ _ _).2 ⟨hk, hm⟩
      · next hn he =>
        refine (Memory.wf_cons _ _ _).2 ⟨fun c hc => ?_, ih hm⟩
        rcases Memory.mem_write hc with rfl | hc
        · simp only; omega
        · exact hk c hc

/-- A read after a write to the same cell gives the value written. -/
@[simp] theorem Memory.read_write_same (m : Memory) (a : Nat) (v : Byte) :
    Memory.read (Memory.write m a v) a = some v := by
  induction m with
  | nil => simp [Memory.write, Memory.read]
  | cons d m ih =>
    obtain ⟨k, w⟩ := d
    simp only [Memory.write]
    split
    · simp [Memory.read]
    · split
      · simp [Memory.read]
      · next he => simp [Memory.read, Ne.symm he, ih]

/-- A write leaves every other cell alone. -/
theorem Memory.read_write_other (m : Memory) {a b : Nat} (v : Byte) (h : b ≠ a) :
    Memory.read (Memory.write m a v) b = Memory.read m b := by
  induction m with
  | nil => simp [Memory.write, Memory.read, h.symm, unlistedCell]
  | cons d m ih =>
    obtain ⟨k, w⟩ := d
    simp only [Memory.write]
    split
    · simp [Memory.read, h.symm]
    · split
      · next he => subst he; simp [Memory.read, h.symm]
      · simp only [Memory.read, ih]

theorem Memory.writeRange_wf {m : Memory} (h : Memory.wf m = true) (a : Nat) (vs : List Byte) :
    Memory.wf (Memory.writeRange m a vs) = true := by
  induction vs generalizing m a with
  | nil => exact h
  | cons v vs ih => exact ih (Memory.write_wf h a v) (a + 1)

theorem Memory.mem_writeRange {m : Memory} {a : Nat} {vs : List Byte} {c : Host.Cell}
    (h : c ∈ Memory.writeRange m a vs) : (a ≤ c.1 ∧ c.1 < a + vs.length) ∨ c ∈ m := by
  induction vs generalizing m a with
  | nil => exact .inr h
  | cons v vs ih =>
    rcases ih h with ⟨h1, h2⟩ | h
    · left; simp only [List.length_cons]; omega
    · rcases Memory.mem_write h with rfl | h
      · left; simp
      · exact .inr h

/-- Writing a sequence leaves every cell outside it alone. -/
theorem Memory.read_writeRange_outside (m : Memory) {a b : Nat} (vs : List Byte)
    (h : b < a ∨ a + vs.length ≤ b) : Memory.read (Memory.writeRange m a vs) b = Memory.read m b := by
  induction vs generalizing m a with
  | nil => rfl
  | cons v vs ih =>
    simp only [List.length_cons] at h
    rw [Memory.writeRange, ih _ (by omega), Memory.read_write_other _ _ (by omega)]

/-- Writing a sequence puts its `i`-th octet into the `i`-th cell. -/
theorem Memory.read_writeRange_inside (m : Memory) (a : Nat) (vs : List Byte) (i : Nat) (h : i < vs.length) :
    Memory.read (Memory.writeRange m a vs) (a + i) = some vs[i] := by
  induction vs generalizing m a i with
  | nil => simp at h
  | cons v vs ih =>
    rw [Memory.writeRange]
    cases i with
    | zero =>
      rw [Memory.read_writeRange_outside _ _ (by omega), Nat.add_zero, Memory.read_write_same]; rfl
    | succ i =>
      have := ih (Memory.write m a v) (a + 1) i (by simpa using h)
      rw [show a + (i + 1) = a + 1 + i by omega, this]; rfl

theorem Memory.readRange_succ (m : Memory) (a n : Nat) (l : List Byte) :
    Memory.readRange m a (n + 1) = some l ↔
      ∃ v vs, l = v :: vs ∧ Memory.read m a = some v ∧ Memory.readRange m (a + 1) n = some vs := by
  simp only [Memory.readRange]
  constructor
  · intro h
    split at h
    · next v vs h1 h2 => exact ⟨v, vs, (Option.some.inj h).symm, h1, h2⟩
    · cases h
  · rintro ⟨v, vs, rfl, h1, h2⟩
    rw [h1, h2]

/-- What a sequence read is: as many octets as cells, each the value of its cell. -/
theorem Memory.readRange_eq_some_iff (m : Memory) (a n : Nat) (l : List Byte) :
    Memory.readRange m a n = some l ↔ l.length = n ∧ ∀ i (h : i < l.length), Memory.read m (a + i) = some l[i] := by
  induction n generalizing a l with
  | zero =>
    constructor
    · intro h
      have h : l = [] := by simpa using h.symm
      subst h; simp
    · rintro ⟨h, -⟩
      rw [List.length_eq_zero_iff.1 h]; rfl
  | succ n ih =>
    rw [Memory.readRange_succ]
    constructor
    · rintro ⟨v, vs, rfl, h1, h2⟩
      obtain ⟨hl, hi⟩ := (ih _ _).1 h2
      refine ⟨by simp [hl], fun i h => ?_⟩
      cases i with
      | zero => simpa using h1
      | succ i =>
        have := hi i (by simpa using h)
        rw [show a + (i + 1) = a + 1 + i by omega, this]; rfl
    · rintro ⟨hl, hi⟩
      cases l with
      | nil => simp at hl
      | cons v vs =>
        have h0 := hi 0 (Nat.succ_pos _)
        refine ⟨v, vs, rfl, h0, (ih _ _).2 ⟨by simpa using hl, fun i h => ?_⟩⟩
        have := hi (i + 1) (by simpa using h)
        rw [show a + 1 + i = a + (i + 1) by omega, this]; rfl

theorem Memory.readRange_length {m : Memory} {a n : Nat} {l : List Byte} (h : Memory.readRange m a n = some l) :
    l.length = n := ((Memory.readRange_eq_some_iff m a n l).1 h).1

/-- Two buffers that agree on the cells read give the same sequence. -/
theorem Memory.readRange_congr {m m' : Memory} {a n : Nat}
    (h : ∀ b, a ≤ b → b < a + n → Memory.read m b = Memory.read m' b) :
    Memory.readRange m a n = Memory.readRange m' a n := by
  induction n generalizing a with
  | zero => rfl
  | succ n ih =>
    simp only [Memory.readRange]
    rw [h a (by omega) (by omega), ih fun b h1 h2 => h b (by omega) (by omega)]

/-- A sequence just written reads back. -/
theorem Memory.readRange_writeRange_same (m : Memory) (a : Nat) (vs : List Byte) :
    Memory.readRange (Memory.writeRange m a vs) a vs.length = some vs :=
  (Memory.readRange_eq_some_iff _ _ _ _).2 ⟨rfl, Memory.read_writeRange_inside m a vs⟩

/-- A sequence read in two parts. -/
theorem Memory.readRange_append {m : Memory} {a n k : Nat} {x y : List Byte}
    (hx : Memory.readRange m a n = some x) (hy : Memory.readRange m (a + n) k = some y) :
    Memory.readRange m a (n + k) = some (x ++ y) := by
  induction n generalizing a x with
  | zero =>
    have hx : x = [] := by simpa using hx.symm
    subst hx; simpa using hy
  | succ n ih =>
    obtain ⟨v, vs, rfl, h1, h2⟩ := (Memory.readRange_succ _ _ _ _).1 hx
    rw [show n + 1 + k = (n + k) + 1 by omega, Memory.readRange_succ]
    exact ⟨v, vs ++ y, rfl, h1, ih h2 (by rw [← hy]; congr 1; omega)⟩

/-- A part of a sequence that can be read can be read. -/
theorem Memory.readRange_part {m : Memory} {a n : Nat} {l : List Byte} (h : Memory.readRange m a n = some l)
    (i k : Nat) (hk : i + k ≤ n) : Memory.readRange m (a + i) k = some ((l.drop i).take k) := by
  obtain ⟨hl, hr⟩ := (Memory.readRange_eq_some_iff _ _ _ _).1 h
  refine (Memory.readRange_eq_some_iff _ _ _ _).2 ⟨by simp; omega, fun j hj => ?_⟩
  have hj : i + j < l.length := by simp at hj; omega
  rw [Nat.add_assoc, hr (i + j) hj]
  simp

end Sys2Proof.Machine
end

