-- ==== Sys2Proof/Laws/State.lean ====
section
/-! SUPPORT. What each register update does to each field of State, one simp lemma per field per update. -/

namespace Sys2Proof.Machine

section Updates
variable (s : State)

/-! `CMD <- c` -/

@[simp] theorem State.setCmd_cmd (c : CmdWord) : (s.setCmd c).cmd = c := rfl
@[simp] theorem State.setCmd_st (c : CmdWord) : (s.setCmd c).st = s.st := rfl
@[simp] theorem State.setCmd_err (c : CmdWord) : (s.setCmd c).err = s.err := rfl
@[simp] theorem State.setCmd_rp (c : CmdWord) : (s.setCmd c).rp = s.rp := rfl
@[simp] theorem State.setCmd_dlen (c : CmdWord) : (s.setCmd c).dlen = s.dlen := rfl
@[simp] theorem State.setCmd_inLen (c : CmdWord) : (s.setCmd c).inLen = s.inLen := rfl
@[simp] theorem State.setCmd_outLen (c : CmdWord) : (s.setCmd c).outLen = s.outLen := rfl
@[simp] theorem State.setCmd_inMem (c : CmdWord) : (s.setCmd c).inMem = s.inMem := rfl
@[simp] theorem State.setCmd_outMem (c : CmdWord) : (s.setCmd c).outMem = s.outMem := rfl
@[simp] theorem State.setCmd_caps (c : CmdWord) : (s.setCmd c).caps = s.caps := rfl
@[simp] theorem State.setCmd_agenda (c : CmdWord) : (s.setCmd c).agenda = s.agenda := rfl
@[simp] theorem State.setCmd_replies (c : CmdWord) : (s.setCmd c).replies = s.replies := rfl
@[simp] theorem State.setCmd_draws (c : CmdWord) : (s.setCmd c).draws = s.draws := rfl

/-! `IN_LEN <- n` -/

@[simp] theorem State.setInLen_cmd (n : Nat) : (s.setInLen n).cmd = s.cmd := rfl
@[simp] theorem State.setInLen_st (n : Nat) : (s.setInLen n).st = s.st := rfl
@[simp] theorem State.setInLen_err (n : Nat) : (s.setInLen n).err = s.err := rfl
@[simp] theorem State.setInLen_rp (n : Nat) : (s.setInLen n).rp = s.rp := rfl
@[simp] theorem State.setInLen_dlen (n : Nat) : (s.setInLen n).dlen = s.dlen := rfl
@[simp] theorem State.setInLen_inLen (n : Nat) : (s.setInLen n).inLen = n := rfl
@[simp] theorem State.setInLen_outLen (n : Nat) : (s.setInLen n).outLen = s.outLen := rfl
@[simp] theorem State.setInLen_inMem (n : Nat) : (s.setInLen n).inMem = s.inMem := rfl
@[simp] theorem State.setInLen_outMem (n : Nat) : (s.setInLen n).outMem = s.outMem := rfl
@[simp] theorem State.setInLen_caps (n : Nat) : (s.setInLen n).caps = s.caps := rfl
@[simp] theorem State.setInLen_agenda (n : Nat) : (s.setInLen n).agenda = s.agenda := rfl
@[simp] theorem State.setInLen_replies (n : Nat) : (s.setInLen n).replies = s.replies := rfl
@[simp] theorem State.setInLen_draws (n : Nat) : (s.setInLen n).draws = s.draws := rfl

/-! `IN[a] <- v` -/

@[simp] theorem State.storeIn_cmd (a : Nat) (v : Byte) : (s.storeIn a v).cmd = s.cmd := rfl
@[simp] theorem State.storeIn_st (a : Nat) (v : Byte) : (s.storeIn a v).st = s.st := rfl
@[simp] theorem State.storeIn_err (a : Nat) (v : Byte) : (s.storeIn a v).err = s.err := rfl
@[simp] theorem State.storeIn_rp (a : Nat) (v : Byte) : (s.storeIn a v).rp = s.rp := rfl
@[simp] theorem State.storeIn_dlen (a : Nat) (v : Byte) : (s.storeIn a v).dlen = s.dlen := rfl
@[simp] theorem State.storeIn_inLen (a : Nat) (v : Byte) : (s.storeIn a v).inLen = s.inLen := rfl
@[simp] theorem State.storeIn_outLen (a : Nat) (v : Byte) : (s.storeIn a v).outLen = s.outLen := rfl
@[simp] theorem State.storeIn_inMem (a : Nat) (v : Byte) : (s.storeIn a v).inMem = Memory.write s.inMem a v := rfl
@[simp] theorem State.storeIn_outMem (a : Nat) (v : Byte) : (s.storeIn a v).outMem = s.outMem := rfl
@[simp] theorem State.storeIn_caps (a : Nat) (v : Byte) : (s.storeIn a v).caps = s.caps := rfl
@[simp] theorem State.storeIn_agenda (a : Nat) (v : Byte) : (s.storeIn a v).agenda = s.agenda := rfl
@[simp] theorem State.storeIn_replies (a : Nat) (v : Byte) : (s.storeIn a v).replies = s.replies := rfl
@[simp] theorem State.storeIn_draws (a : Nat) (v : Byte) : (s.storeIn a v).draws = s.draws := rfl

/-! the effect of `START` -/

@[simp] theorem State.begin_cmd : (s.begin).cmd = s.cmd := rfl
@[simp] theorem State.begin_st : (s.begin).st = if opIsDecode s then .check else .xfer := rfl
@[simp] theorem State.begin_err : (s.begin).err = false := rfl
@[simp] theorem State.begin_rp : (s.begin).rp = 0 := rfl
@[simp] theorem State.begin_dlen : (s.begin).dlen = 0 := rfl
@[simp] theorem State.begin_inLen : (s.begin).inLen = s.inLen := rfl
@[simp] theorem State.begin_outLen : (s.begin).outLen = 0 := rfl
@[simp] theorem State.begin_inMem : (s.begin).inMem = s.inMem := rfl
@[simp] theorem State.begin_outMem : (s.begin).outMem = s.outMem := rfl
@[simp] theorem State.begin_caps : (s.begin).caps = s.caps := rfl
@[simp] theorem State.begin_agenda : (s.begin).agenda = s.agenda := rfl
@[simp] theorem State.begin_replies : (s.begin).replies = s.replies := rfl
@[simp] theorem State.begin_draws : (s.begin).draws = s.draws := rfl

/-! the effect of `RESET` -/

@[simp] theorem State.resetCodec_cmd : (s.resetCodec).cmd = 0b00#2 := rfl
@[simp] theorem State.resetCodec_st : (s.resetCodec).st = .idle := rfl
@[simp] theorem State.resetCodec_err : (s.resetCodec).err = false := rfl
@[simp] theorem State.resetCodec_rp : (s.resetCodec).rp = 0 := rfl
@[simp] theorem State.resetCodec_dlen : (s.resetCodec).dlen = 0 := rfl
@[simp] theorem State.resetCodec_inLen : (s.resetCodec).inLen = 0 := rfl
@[simp] theorem State.resetCodec_outLen : (s.resetCodec).outLen = 0 := rfl
@[simp] theorem State.resetCodec_inMem : (s.resetCodec).inMem = [] := rfl
@[simp] theorem State.resetCodec_outMem : (s.resetCodec).outMem = [] := rfl
@[simp] theorem State.resetCodec_caps : (s.resetCodec).caps = s.caps := rfl
@[simp] theorem State.resetCodec_agenda : (s.resetCodec).agenda = s.agenda := rfl
@[simp] theorem State.resetCodec_replies : (s.resetCodec).replies = s.replies := rfl
@[simp] theorem State.resetCodec_draws : (s.resetCodec).draws = s.draws := rfl

/-! output appended -/

@[simp] theorem State.produce_cmd (bs : List Byte) (d : Nat) : (s.produce bs d).cmd = s.cmd := rfl
@[simp] theorem State.produce_st (bs : List Byte) (d : Nat) : (s.produce bs d).st = s.st := rfl
@[simp] theorem State.produce_err (bs : List Byte) (d : Nat) : (s.produce bs d).err = s.err := rfl
@[simp] theorem State.produce_rp (bs : List Byte) (d : Nat) : (s.produce bs d).rp = s.rp + d := rfl
@[simp] theorem State.produce_dlen (bs : List Byte) (d : Nat) : (s.produce bs d).dlen = s.dlen := rfl
@[simp] theorem State.produce_inLen (bs : List Byte) (d : Nat) : (s.produce bs d).inLen = s.inLen := rfl
@[simp] theorem State.produce_outLen (bs : List Byte) (d : Nat) : (s.produce bs d).outLen = s.outLen + bs.length := rfl
@[simp] theorem State.produce_inMem (bs : List Byte) (d : Nat) : (s.produce bs d).inMem = s.inMem := rfl
@[simp] theorem State.produce_outMem (bs : List Byte) (d : Nat) : (s.produce bs d).outMem = Memory.writeRange s.outMem s.outLen bs := rfl
@[simp] theorem State.produce_caps (bs : List Byte) (d : Nat) : (s.produce bs d).caps = s.caps := rfl
@[simp] theorem State.produce_agenda (bs : List Byte) (d : Nat) : (s.produce bs d).agenda = s.agenda := rfl
@[simp] theorem State.produce_replies (bs : List Byte) (d : Nat) : (s.produce bs d).replies = s.replies := rfl
@[simp] theorem State.produce_draws (bs : List Byte) (d : Nat) : (s.produce bs d).draws = s.draws := rfl

/-! `ST <- DONE` -/

@[simp] theorem State.finish_cmd : (s.finish).cmd = s.cmd := rfl
@[simp] theorem State.finish_st : (s.finish).st = .done := rfl
@[simp] theorem State.finish_err : (s.finish).err = s.err := rfl
@[simp] theorem State.finish_rp : (s.finish).rp = s.rp := rfl
@[simp] theorem State.finish_dlen : (s.finish).dlen = s.dlen := rfl
@[simp] theorem State.finish_inLen : (s.finish).inLen = s.inLen := rfl
@[simp] theorem State.finish_outLen : (s.finish).outLen = s.outLen := rfl
@[simp] theorem State.finish_inMem : (s.finish).inMem = s.inMem := rfl
@[simp] theorem State.finish_outMem : (s.finish).outMem = s.outMem := rfl
@[simp] theorem State.finish_caps : (s.finish).caps = s.caps := rfl
@[simp] theorem State.finish_agenda : (s.finish).agenda = s.agenda := rfl
@[simp] theorem State.finish_replies : (s.finish).replies = s.replies := rfl
@[simp] theorem State.finish_draws : (s.finish).draws = s.draws := rfl

/-! a text accepted -/

@[simp] theorem State.acceptText_cmd (d : Nat) : (s.acceptText d).cmd = s.cmd := rfl
@[simp] theorem State.acceptText_st (d : Nat) : (s.acceptText d).st = .xfer := rfl
@[simp] theorem State.acceptText_err (d : Nat) : (s.acceptText d).err = s.err := rfl
@[simp] theorem State.acceptText_rp (d : Nat) : (s.acceptText d).rp = s.rp := rfl
@[simp] theorem State.acceptText_dlen (d : Nat) : (s.acceptText d).dlen = d := rfl
@[simp] theorem State.acceptText_inLen (d : Nat) : (s.acceptText d).inLen = s.inLen := rfl
@[simp] theorem State.acceptText_outLen (d : Nat) : (s.acceptText d).outLen = s.outLen := rfl
@[simp] theorem State.acceptText_inMem (d : Nat) : (s.acceptText d).inMem = s.inMem := rfl
@[simp] theorem State.acceptText_outMem (d : Nat) : (s.acceptText d).outMem = s.outMem := rfl
@[simp] theorem State.acceptText_caps (d : Nat) : (s.acceptText d).caps = s.caps := rfl
@[simp] theorem State.acceptText_agenda (d : Nat) : (s.acceptText d).agenda = s.agenda := rfl
@[simp] theorem State.acceptText_replies (d : Nat) : (s.acceptText d).replies = s.replies := rfl
@[simp] theorem State.acceptText_draws (d : Nat) : (s.acceptText d).draws = s.draws := rfl

/-! the error outcome -/

@[simp] theorem State.invalidInput_cmd : (s.invalidInput).cmd = s.cmd := rfl
@[simp] theorem State.invalidInput_st : (s.invalidInput).st = .done := rfl
@[simp] theorem State.invalidInput_err : (s.invalidInput).err = true := rfl
@[simp] theorem State.invalidInput_rp : (s.invalidInput).rp = s.rp := rfl
@[simp] theorem State.invalidInput_dlen : (s.invalidInput).dlen = s.dlen := rfl
@[simp] theorem State.invalidInput_inLen : (s.invalidInput).inLen = s.inLen := rfl
@[simp] theorem State.invalidInput_outLen : (s.invalidInput).outLen = 0 := rfl
@[simp] theorem State.invalidInput_inMem : (s.invalidInput).inMem = s.inMem := rfl
@[simp] theorem State.invalidInput_outMem : (s.invalidInput).outMem = s.outMem := rfl
@[simp] theorem State.invalidInput_caps : (s.invalidInput).caps = s.caps := rfl
@[simp] theorem State.invalidInput_agenda : (s.invalidInput).agenda = s.agenda := rfl
@[simp] theorem State.invalidInput_replies : (s.invalidInput).replies = s.replies := rfl
@[simp] theorem State.invalidInput_draws : (s.invalidInput).draws = s.draws := rfl

/-! a host read -/

@[simp] theorem State.reply_cmd (r : Reply) : (s.reply r).cmd = s.cmd := rfl
@[simp] theorem State.reply_st (r : Reply) : (s.reply r).st = s.st := rfl
@[simp] theorem State.reply_err (r : Reply) : (s.reply r).err = s.err := rfl
@[simp] theorem State.reply_rp (r : Reply) : (s.reply r).rp = s.rp := rfl
@[simp] theorem State.reply_dlen (r : Reply) : (s.reply r).dlen = s.dlen := rfl
@[simp] theorem State.reply_inLen (r : Reply) : (s.reply r).inLen = s.inLen := rfl
@[simp] theorem State.reply_outLen (r : Reply) : (s.reply r).outLen = s.outLen := rfl
@[simp] theorem State.reply_inMem (r : Reply) : (s.reply r).inMem = s.inMem := rfl
@[simp] theorem State.reply_outMem (r : Reply) : (s.reply r).outMem = s.outMem := rfl
@[simp] theorem State.reply_caps (r : Reply) : (s.reply r).caps = s.caps := rfl
@[simp] theorem State.reply_agenda (r : Reply) : (s.reply r).agenda = s.agenda := rfl
@[simp] theorem State.reply_replies (r : Reply) : (s.reply r).replies = r :: s.replies := rfl
@[simp] theorem State.reply_draws (r : Reply) : (s.reply r).draws = s.draws := rfl

/-! a free value drawn -/

@[simp] theorem State.draw_cmd : (s.draw).cmd = s.cmd := rfl
@[simp] theorem State.draw_st : (s.draw).st = s.st := rfl
@[simp] theorem State.draw_err : (s.draw).err = s.err := rfl
@[simp] theorem State.draw_rp : (s.draw).rp = s.rp := rfl
@[simp] theorem State.draw_dlen : (s.draw).dlen = s.dlen := rfl
@[simp] theorem State.draw_inLen : (s.draw).inLen = s.inLen := rfl
@[simp] theorem State.draw_outLen : (s.draw).outLen = s.outLen := rfl
@[simp] theorem State.draw_inMem : (s.draw).inMem = s.inMem := rfl
@[simp] theorem State.draw_outMem : (s.draw).outMem = s.outMem := rfl
@[simp] theorem State.draw_caps : (s.draw).caps = s.caps := rfl
@[simp] theorem State.draw_agenda : (s.draw).agenda = s.agenda := rfl
@[simp] theorem State.draw_replies : (s.draw).replies = s.replies := rfl
@[simp] theorem State.draw_draws : (s.draw).draws = s.draws + 1 := rfl

/-! the turns replaced -/

@[simp] theorem State.setAgenda_cmd (l : List Turn) : (s.setAgenda l).cmd = s.cmd := rfl
@[simp] theorem State.setAgenda_st (l : List Turn) : (s.setAgenda l).st = s.st := rfl
@[simp] theorem State.setAgenda_err (l : List Turn) : (s.setAgenda l).err = s.err := rfl
@[simp] theorem State.setAgenda_rp (l : List Turn) : (s.setAgenda l).rp = s.rp := rfl
@[simp] theorem State.setAgenda_dlen (l : List Turn) : (s.setAgenda l).dlen = s.dlen := rfl
@[simp] theorem State.setAgenda_inLen (l : List Turn) : (s.setAgenda l).inLen = s.inLen := rfl
@[simp] theorem State.setAgenda_outLen (l : List Turn) : (s.setAgenda l).outLen = s.outLen := rfl
@[simp] theorem State.setAgenda_inMem (l : List Turn) : (s.setAgenda l).inMem = s.inMem := rfl
@[simp] theorem State.setAgenda_outMem (l : List Turn) : (s.setAgenda l).outMem = s.outMem := rfl
@[simp] theorem State.setAgenda_caps (l : List Turn) : (s.setAgenda l).caps = s.caps := rfl
@[simp] theorem State.setAgenda_agenda (l : List Turn) : (s.setAgenda l).agenda = l := rfl
@[simp] theorem State.setAgenda_replies (l : List Turn) : (s.setAgenda l).replies = s.replies := rfl
@[simp] theorem State.setAgenda_draws (l : List Turn) : (s.setAgenda l).draws = s.draws := rfl

end Updates

/-! the state after reset -/

@[simp] theorem State.resetWith_cmd (c : Capacities) : (State.resetWith c).cmd = 0b00#2 := rfl
@[simp] theorem State.resetWith_st (c : Capacities) : (State.resetWith c).st = .idle := rfl
@[simp] theorem State.resetWith_err (c : Capacities) : (State.resetWith c).err = false := rfl
@[simp] theorem State.resetWith_rp (c : Capacities) : (State.resetWith c).rp = 0 := rfl
@[simp] theorem State.resetWith_dlen (c : Capacities) : (State.resetWith c).dlen = 0 := rfl
@[simp] theorem State.resetWith_inLen (c : Capacities) : (State.resetWith c).inLen = 0 := rfl
@[simp] theorem State.resetWith_outLen (c : Capacities) : (State.resetWith c).outLen = 0 := rfl
@[simp] theorem State.resetWith_inMem (c : Capacities) : (State.resetWith c).inMem = [] := rfl
@[simp] theorem State.resetWith_outMem (c : Capacities) : (State.resetWith c).outMem = [] := rfl
@[simp] theorem State.resetWith_caps (c : Capacities) : (State.resetWith c).caps = c := rfl
@[simp] theorem State.resetWith_agenda (c : Capacities) : (State.resetWith c).agenda = [] := rfl
@[simp] theorem State.resetWith_replies (c : Capacities) : (State.resetWith c).replies = [] := rfl
@[simp] theorem State.resetWith_draws (c : Capacities) : (State.resetWith c).draws = 0 := rfl

/-! the host's lines touch the agenda only -/

theorem State.pushLines_eq (s : State) (l : List HostLine) :
    s.pushLines l = s.setAgenda (l.map Turn.host ++ s.agenda) := rfl

theorem waitOn_eq (s : State) : ∃ l, waitOn s = s.setAgenda l := by
  unfold waitOn
  split
  · exact ⟨s.agenda, rfl⟩
  · exact ⟨_, rfl⟩

/-! the views -/

theorem busy_iff (s : State) : busy s = true ↔ s.st = .check ∨ s.st = .xfer := by
  unfold busy; cases s.st <;> simp

theorem busy_eq_false_iff (s : State) : busy s = false ↔ s.st = .idle ∨ s.st = .done := by
  unfold busy; cases s.st <;> simp

@[simp] theorem doneView_iff (s : State) : doneView s = true ↔ s.st = .done := by simp [doneView]

end Sys2Proof.Machine
end

