-- ==== Sys2Proof/Laws/Ops.lean ====
section
/-! SUPPORT. What each shared operation can do, said once: if it answers next, then one of these cases holds. -/

namespace Sys2Proof.Machine

variable {s t : State}

/-- `MemRead` and its continuation (R8). -/
theorem memRead_next {a n : Nat} {k : List Byte → Host.Outcome State Fault Refusal} (h : memRead a n s k = .next t) :
    a + n ≤ s.inLen ∧ ∃ g, Memory.readRange s.inMem a n = some g ∧ k g = .next t := by
  unfold memRead at h
  split at h
  · next hle =>
    split at h
    · next g hg => exact ⟨hle, g, hg, h⟩
    · cases h
  · cases h

/-- Where `MemRead` goes on. -/
theorem memRead_eq {a n : Nat} {g : List Byte} (hle : a + n ≤ s.inLen) (hg : Memory.readRange s.inMem a n = some g)
    (k : List Byte → Host.Outcome State Fault Refusal) : memRead a n s k = k g := by
  simp [memRead, hle, hg]

/-- `MemWrite` with its pointer advances (R8, R27). -/
theorem memAppend_next {bs : List Byte} {d : Nat} (h : memAppend bs d s = .next t) :
    Capacities.fits s.caps.outCap (s.outLen + bs.length) = true ∧ t = s.produce bs d := by
  unfold memAppend at h
  split at h
  · next hf => exact ⟨hf, (Host.Outcome.next.inj h).symm⟩
  · cases h

/-- The gate: nothing happened, or the codec was not busy (R24). -/
theorem gated_next {e : Host.Outcome State Fault Refusal} (h : gated s e = .next t) :
    (busy s = true ∧ t = s) ∨ (busy s = false ∧ e = .next t) := by
  unfold gated at h
  split at h
  · next hb => exact .inl ⟨hb, (Host.Outcome.next.inj h).symm⟩
  · next hb => exact .inr ⟨by simpa using hb, h⟩

/-- What one codec step of an encode can do (R18, R72, R73). -/
theorem encStep_next {α : Alphabet} (h : encStep α s = .next t) :
    (busy s = false ∧ t = s) ∨
    (s.st = .xfer ∧ s.rp < s.inLen ∧ ∃ g, Memory.readRange s.inMem s.rp (min 5 (s.inLen - s.rp)) = some g ∧
      Capacities.fits s.caps.outCap (s.outLen + (encGroup α g).length) = true ∧
      t = s.produce (encGroup α g) (min 5 (s.inLen - s.rp))) ∨
    (s.st = .xfer ∧ s.rp = s.inLen ∧ t = s.finish) := by
  unfold encStep at h
  split at h
  · next hs => exact .inl ⟨by simp [busy, hs], (Host.Outcome.next.inj h).symm⟩
  · next hs => exact .inl ⟨by simp [busy, hs], (Host.Outcome.next.inj h).symm⟩
  · cases h
  · next hs =>
    split at h
    · next hlt =>
      obtain ⟨-, g, hg, h⟩ := memRead_next h
      obtain ⟨hf, rfl⟩ := memAppend_next h
      exact .inr (.inl ⟨hs, hlt, g, hg, hf, rfl⟩)
    · split at h
      · next he => exact .inr (.inr ⟨hs, he, (Host.Outcome.next.inj h).symm⟩)
      · cases h

/-- What one codec step of a decode can do (R18, R97, R98, R99, R108). -/
theorem decStep_next {α : Alphabet} (h : decStep α s = .next t) :
    (busy s = false ∧ t = s) ∨
    (s.st = .check ∧ ∃ x, message s = some x ∧ validText α x = true ∧ t = s.acceptText (dataLength x)) ∨
    (s.st = .check ∧ ∃ x, message s = some x ∧ validText α x = false ∧ t = s.invalidInput) ∨
    (s.st = .xfer ∧ s.rp < s.dlen ∧ ∃ b bytes,
      s.rp + min 8 (s.dlen - s.rp) ≤ s.inLen ∧
      Memory.readRange s.inMem s.rp (min 8 (s.dlen - s.rp)) = some b ∧ decBlock α b = some bytes ∧
      Capacities.fits s.caps.outCap (s.outLen + bytes.length) = true ∧
      t = s.produce bytes (min 8 (s.dlen - s.rp))) ∨
    (s.st = .xfer ∧ s.rp = s.dlen ∧ t = s.finish) := by
  unfold decStep at h
  split at h
  · next hs => exact .inl ⟨by simp [busy, hs], (Host.Outcome.next.inj h).symm⟩
  · next hs => exact .inl ⟨by simp [busy, hs], (Host.Outcome.next.inj h).symm⟩
  · next hs =>
    obtain ⟨-, x, hx, h⟩ := memRead_next h
    split at h
    · next hv => exact .inr (.inl ⟨hs, x, hx, hv, (Host.Outcome.next.inj h).symm⟩)
    · next hv => exact .inr (.inr (.inl ⟨hs, x, hx, by simpa using hv, (Host.Outcome.next.inj h).symm⟩))
  · next hs =>
    split at h
    · next hlt =>
      obtain ⟨hle, b, hb, h⟩ := memRead_next h
      split at h
      · next bytes hbytes =>
        obtain ⟨hf, rfl⟩ := memAppend_next h
        exact .inr (.inr (.inr (.inl ⟨hs, hlt, b, bytes, hle, hb, hbytes, hf, rfl⟩)))
      · cases h
    · split at h
      · next he => exact .inr (.inr (.inr (.inr ⟨hs, he, (Host.Outcome.next.inj h).symm⟩)))
      · cases h

/-- What a host action can do (R24): a register or cell written or an operation started while not busy, a reply, a reset. -/
theorem hostAction_next {a : HostAction} (h : hostAction a s = .next t) :
    t = s ∨
    (busy s = false ∧ ∃ c, a = .wrCmd c ∧ t = s.setCmd c) ∨
    (busy s = false ∧ ∃ n, a = .wrInLen n ∧ Capacities.fits s.caps.inCap n = true ∧ t = s.setInLen n) ∨
    (busy s = false ∧ ∃ b v, a = .wrIn b v ∧ Capacities.hasAddress s.caps.inCap b = true ∧ t = s.storeIn b v) ∨
    (busy s = false ∧ a = .start ∧ (message s).isSome = true ∧ t = s.begin) ∨
    (∃ r, t = s.reply r) ∨ (∃ r, t = (s.reply r).draw) ∨
    (a = .reset ∧ t = s.resetCodec) := by
  cases a with
  | wrCmd c =>
    rcases gated_next h with ⟨-, rfl⟩ | ⟨hb, h⟩
    · exact .inl rfl
    · exact .inr (.inl ⟨hb, c, rfl, (Host.Outcome.next.inj h).symm⟩)
  | wrInLen n =>
    rcases gated_next h with ⟨-, rfl⟩ | ⟨hb, h⟩
    · exact .inl rfl
    · split at h
      · next hf => exact .inr (.inr (.inl ⟨hb, n, rfl, hf, (Host.Outcome.next.inj h).symm⟩))
      · cases h
  | wrIn b v =>
    rcases gated_next h with ⟨-, rfl⟩ | ⟨hb, h⟩
    · exact .inl rfl
    · split at h
      · next hf => exact .inr (.inr (.inr (.inl ⟨hb, b, v, rfl, hf, (Host.Outcome.next.inj h).symm⟩)))
      · cases h
  | start =>
    rcases gated_next h with ⟨-, rfl⟩ | ⟨hb, h⟩
    · exact .inl rfl
    · split at h
      · next m hm => exact .inr (.inr (.inr (.inr (.inl ⟨hb, rfl, by simp [hm], (Host.Outcome.next.inj h).symm⟩))))
      · cases h
  | rdStatus =>
    simp only [hostAction, actRdStatus] at h
    split at h
    · exact .inr (.inr (.inr (.inr (.inr (.inr (.inl ⟨_, (Host.Outcome.next.inj h).symm⟩))))))
    · exact .inr (.inr (.inr (.inr (.inr (.inl ⟨_, (Host.Outcome.next.inj h).symm⟩)))))
  | rdOutLen =>
    simp only [hostAction, actRdOutLen] at h
    split at h
    · exact .inr (.inr (.inr (.inr (.inr (.inr (.inl ⟨_, (Host.Outcome.next.inj h).symm⟩))))))
    · exact .inr (.inr (.inr (.inr (.inr (.inl ⟨_, (Host.Outcome.next.inj h).symm⟩)))))
  | rdOut b =>
    simp only [hostAction, actRdOut] at h
    split at h
    · exact .inr (.inr (.inr (.inr (.inr (.inl ⟨_, (Host.Outcome.next.inj h).symm⟩)))))
    · exact .inr (.inr (.inr (.inr (.inr (.inr (.inl ⟨_, (Host.Outcome.next.inj h).symm⟩))))))
  | rdCmd => exact .inr (.inr (.inr (.inr (.inr (.inl ⟨_, (Host.Outcome.next.inj h).symm⟩)))))
  | rdInLen => exact .inr (.inr (.inr (.inr (.inr (.inl ⟨_, (Host.Outcome.next.inj h).symm⟩)))))
  | rdIn b =>
    simp only [hostAction, actRdIn] at h
    split at h
    · split at h
      · exact .inr (.inr (.inr (.inr (.inr (.inl ⟨_, (Host.Outcome.next.inj h).symm⟩)))))
      · exact .inr (.inr (.inr (.inr (.inr (.inr (.inl ⟨_, (Host.Outcome.next.inj h).symm⟩))))))
    · cases h
  | reset => exact .inr (.inr (.inr (.inr (.inr (.inr (.inr ⟨rfl, (Host.Outcome.next.inj h).symm⟩))))))

/-- A poll replies and changes nothing else. -/
theorem actRdStatus_next (h : actRdStatus s = .next t) : (∃ r, t = s.reply r) ∨ ∃ r, t = (s.reply r).draw := by
  unfold actRdStatus at h
  split at h
  · exact .inr ⟨_, (Host.Outcome.next.inj h).symm⟩
  · exact .inl ⟨_, (Host.Outcome.next.inj h).symm⟩

/-- What a turn of the host can do (R24, R63): a host action, or lines put first, or a poll with its `WAIT` put back. -/
theorem hostTurn_next {l : HostLine} (h : hostTurn l s = .next t) :
    (∃ a, l = .act a ∧ hostAction a s = .next t) ∨
    (∃ ls, t = s.pushLines ls) ∨ t = s ∨
    (l = .wait ∧ ∃ u, actRdStatus s = .next u ∧ t = waitOn u) := by
  cases l with
  | act a => exact .inl ⟨a, rfl, h⟩
  | load m => exact .inr (.inl ⟨_, (Host.Outcome.next.inj h).symm⟩)
  | wait =>
    simp only [hostTurn] at h
    split at h
    · next u hu => exact .inr (.inr (.inr ⟨rfl, u, hu, (Host.Outcome.next.inj h).symm⟩))
    · cases h
    · cases h
  | result => exact .inr (.inl ⟨_, (Host.Outcome.next.inj h).symm⟩)
  | readOut =>
    simp only [hostTurn] at h
    split at h
    · exact .inr (.inl ⟨_, (Host.Outcome.next.inj h).symm⟩)
    · exact .inr (.inr (.inl (Host.Outcome.next.inj h).symm))
  | copyback => exact .inr (.inl ⟨_, (Host.Outcome.next.inj h).symm⟩)
  | loadBack => exact .inr (.inl ⟨_, (Host.Outcome.next.inj h).symm⟩)
  | call i m => exact .inr (.inl ⟨_, (Host.Outcome.next.inj h).symm⟩)

/-- One codec step is a step of the encoder or of the decoder, by the command. -/
theorem exec_cases (i : Instr) (s : State) :
    ((i = .enc32 ∨ i = .enc32hex) ∧ exec i s = encStep (alphabetOfInstr i) s) ∨
    ((i = .dec32 ∨ i = .dec32hex) ∧ exec i s = decStep (alphabetOfInstr i) s) := by
  cases i
  · exact .inl ⟨.inl rfl, rfl⟩
  · exact .inr ⟨.inl rfl, rfl⟩
  · exact .inl ⟨.inr rfl, rfl⟩
  · exact .inr ⟨.inr rfl, rfl⟩

/-- A step of the machine is a turn of one of its two agents (R9). -/
theorem step_cases (s : State) :
    (∃ l rest, s.agenda = .host l :: rest ∧ step s = hostTurn l (s.setAgenda rest)) ∨
    (∃ rest, step s = exec (fetchCommand (s.setAgenda rest)) (s.setAgenda rest)) := by
  unfold step
  split
  · next h => exact .inr ⟨[], by rw [← h]; rfl⟩
  · next rest h => exact .inr ⟨rest, rfl⟩
  · next l rest h => exact .inl ⟨l, rest, h, rfl⟩

end Sys2Proof.Machine
end

