-- ==== Sys2Proof/Laws/Operation.lean ====
section
/-! SUPPORT. Laws of an operation as a whole: capacities, the message and its parts, the result buffer growing, runs in two
parts. -/

namespace Sys2Proof.Machine

theorem Capacities.fits_mono {c : Option Nat} {a b : Nat} (h : Capacities.fits c b = true) (hab : a ≤ b) :
    Capacities.fits c a = true := by
  cases c <;> simp [Capacities.fits] at *; omega

theorem Capacities.hasAddress_of_fits {c : Option Nat} {a b : Nat} (h : Capacities.fits c b = true) (hab : a < b) :
    Capacities.hasAddress c a = true := by
  cases c <;> simp [Capacities.fits, Capacities.hasAddress] at *; omega

/-- What fits `8 * ceil(n / 5)` octets fits `OUT`, when `n` octets fit `IN` (R7, R33). -/
theorem Capacities.out_fits {c : Capacities} (hw : c.wellFormed = true) {n k : Nat}
    (hn : Capacities.fits c.inCap n = true) (hk : k ≤ 8 * ((n + 4) / 5)) : Capacities.fits c.outCap k = true := by
  obtain ⟨i, o⟩ := c
  cases i <;> cases o <;> simp [Capacities.wellFormed, Capacities.fits, ceilDiv_five] at hw hn ⊢
  have := of_decide_eq_true hw
  omega

theorem message_length {s : State} {m : List Byte} (h : message s = some m) : m.length = s.inLen :=
  Memory.readRange_length h

/-- What a step reads of the message is that part of the message (R26). -/
theorem message_part {s : State} {m : List Byte} (h : message s = some m) {a n : Nat} (hn : a + n ≤ s.inLen) :
    Memory.readRange s.inMem a n = some ((m.drop a).take n) := by
  have := Memory.readRange_part h a n hn
  rwa [Nat.zero_add] at this

/-- The result buffer after an append at its end (R27). -/
theorem Memory.readRange_append_written {m : Memory} {n : Nat} {x : List Byte} (bs : List Byte)
    (h : Memory.readRange m 0 n = some x) :
    Memory.readRange (Memory.writeRange m n bs) 0 (n + bs.length) = some (x ++ bs) := by
  refine Memory.readRange_append (x := x) ?_ ?_
  · rw [← h]
    exact Memory.readRange_congr fun b _ hb => Memory.read_writeRange_outside _ _ (by omega)
  · rw [Nat.zero_add]
    exact Memory.readRange_writeRange_same _ _ _

theorem dataLength_le (t : List Byte) : dataLength t ≤ t.length := Nat.sub_le _ _

@[simp] theorem dataPortion_length (t : List Byte) : (dataPortion t).length = dataLength t := by
  unfold dataPortion
  rw [List.length_take]
  have := dataLength_le t
  omega

/-- An accepted text's data portion ends on a block or with 2, 4, 5 or 7 characters (R86). -/
theorem validText_dataLength {α : Alphabet} {t : List Byte} (h : validText α t = true) :
    dataLength t % 8 = 0 ∨ dataLength t % 8 = 2 ∨ dataLength t % 8 = 4 ∨ dataLength t % 8 = 5 ∨ dataLength t % 8 = 7 := by
  simp [validText, accepted] at h
  omega

/-- The agenda is no state of the codec (R10). -/
theorem SameCodec.setAgenda (s : State) (l : List Turn) : SameCodec s (s.setAgenda l) := by
  constructor <;> rfl

/-- A range with a cell that holds no value is not read (R133). -/
theorem Memory.readRange_eq_none {m : Memory} {a n b : Nat} (h1 : a ≤ b) (h2 : b < a + n) (hb : Memory.read m b = none) :
    Memory.readRange m a n = none := by
  cases h : Memory.readRange m a n with
  | none => rfl
  | some l =>
    obtain ⟨hl, hv⟩ := (Memory.readRange_eq_some_iff _ _ _ _).1 h
    have hi := hv (b - a) (by omega)
    rw [Nat.add_sub_cancel' h1, hb] at hi
    cases hi

/-- The result of an encode command (R64, R74, R75). -/
theorem commandResult_encode {i : Instr} (h : i = .enc32 ∨ i = .enc32hex) (m : List Byte) :
    commandResult i m = (false, 8 * ceilDiv m.length 5, encodeMessage (alphabetOfInstr i) m) := if_pos h

/-- The result of a decode command on an accepted text (R64, R100, R101). -/
theorem commandResult_accepted {i : Instr} (h : i = .dec32 ∨ i = .dec32hex) {m b : List Byte}
    (hb : decodeMessage (alphabetOfInstr i) m = some b) : commandResult i m = (false, b.length, b) := by
  rcases h with rfl | rfl <;> simp [commandResult, hb]

/-- The result of a decode command on a rejected text (R64, R108). -/
theorem commandResult_rejected {i : Instr} (h : i = .dec32 ∨ i = .dec32hex) {m : List Byte}
    (hb : decodeMessage (alphabetOfInstr i) m = none) : commandResult i m = (true, 0, []) := by
  rcases h with rfl | rfl <;> simp [commandResult, hb]

/-- A run in two parts. -/
theorem runFor_add {k n : Nat} {s t : State} (h : runFor k s = .next t) : runFor (k + n) s = runFor n t := by
  induction k generalizing s with
  | zero => cases h; rw [Nat.zero_add]
  | succ k ih =>
    simp only [runFor, Host.Core.run] at h
    split at h
    · next u hu =>
      have := ih h
      rw [Nat.add_right_comm]
      simp only [runFor, Host.Core.run, hu] at this ⊢
      exact this
    · cases h
    · cases h

/-- One step of a run. -/
theorem runFor_succ {n : Nat} {s t : State} (h : step s = .next t) : runFor (n + 1) s = runFor n t := by
  have hk : runFor 1 s = .next t := by simp only [runFor, Host.Core.run, core, h]
  rw [Nat.add_comm]
  exact runFor_add hk

/-- The last step of a run. -/
theorem runFor_last {n : Nat} {s t : State} (h : runFor (n + 1) s = .next t) :
    ∃ u, runFor n s = .next u ∧ step u = .next t := by
  induction n generalizing s with
  | zero =>
    refine ⟨s, rfl, ?_⟩
    simp only [runFor, Host.Core.run, core] at h
    split at h <;> simp_all
  | succ n ih =>
    simp only [runFor, Host.Core.run] at h
    split at h
    · next w hw =>
      obtain ⟨u, h1, h2⟩ := ih (s := w) h
      exact ⟨u, by rw [runFor_succ hw]; exact h1, h2⟩
    · cases h
    · cases h

end Sys2Proof.Machine
end

