-- ==== Sys2Proof/Laws/PerInstr.lean ====
section
/-! SUPPORT. Statements for all instructions, one lemma per constructor. -/

namespace Sys2Proof.Laws.RoundTrip

/-- The octet of an instruction decodes to it, whatever follows, and its word decodes to it (R45, R46). -/
def Statement (i : Instr) : Prop :=
  (∀ rest, decodeOctets (encodeOctets i ++ rest) = .ok (i, rest)) ∧ decodeCmd (encode i) = i

theorem enc32 : Statement .enc32 := ⟨fun _ => rfl, rfl⟩
theorem dec32 : Statement .dec32 := ⟨fun _ => rfl, rfl⟩
theorem enc32hex : Statement .enc32hex := ⟨fun _ => rfl, rfl⟩
theorem dec32hex : Statement .dec32hex := ⟨fun _ => rfl, rfl⟩

end Sys2Proof.Laws.RoundTrip
end

