-- ==== Sys2Proof/Tests/Slice0.lean ====
section
/-! SUPPORT. The model's own tests: well-formedness smoke, decoding of words written out from R45 and R46, one-step tests with
results from 95_test_vectors.md, and for every statement with hypotheses a witness that meets them. -/

namespace Sys2Proof.Tests

-- One thread for the many small theorems of this file: each waiting thread reserves a stack.
set_option Elab.async false

open Sys2Proof.Machine

/-! ## Well-formedness: a term each check refuses -/

/-- Buffers of 5 and 8 octets: the least `OUT_CAP` R7 allows beside `IN_CAP = 5`. -/
def tight : Capacities := { inCap := some 5, outCap := some 8 }

theorem test_capacities_ok : tight.wellFormed = true := by decide
theorem test_capacities_too_small_out : ({ inCap := some 6, outCap := some 8 } : Capacities).wellFormed = false := by decide
theorem test_capacities_unbounded_in : ({ inCap := none, outCap := some 8 } : Capacities).wellFormed = false := by decide
theorem test_wrInLen_refused : (HostAction.wrInLen 6).wellFormed tight = false := by decide
theorem test_wrIn_refused : (HostAction.wrIn 5 0#8).wellFormed tight = false := by decide
theorem test_rdIn_refused : (HostAction.rdIn 5).wellFormed tight = false := by decide
theorem test_rdOut_refused : (HostAction.rdOut 8).wellFormed tight = false := by decide
theorem test_act_refused : (HostLine.act (.rdOut 8)).wellFormed tight = false := by decide
theorem test_load_refused : (HostLine.load [1#8, 2#8, 3#8, 4#8, 5#8, 6#8]).wellFormed tight = false := by decide
theorem test_call_refused : (HostLine.call .enc32 [1#8, 2#8, 3#8, 4#8, 5#8, 6#8]).wellFormed tight = false := by decide
theorem test_every_command_ok : ∀ c : CmdWord, (decodeCmd c).wellFormed = true := by decide

/-! ## Decoding: the words of R46's table, bit by bit (`ALPHA` is bit 1, `OP` bit 0) -/

theorem test_decode_enc32 : decodeOctets [0b00000000#8] = .ok (.enc32, []) := rfl
theorem test_decode_dec32 : decodeOctets [0b00000001#8] = .ok (.dec32, []) := rfl
theorem test_decode_enc32hex : decodeOctets [0b00000010#8] = .ok (.enc32hex, []) := rfl
theorem test_decode_dec32hex : decodeOctets [0b00000011#8] = .ok (.dec32hex, []) := rfl
theorem test_decode_rejects_bit_2 : decodeOctets [0b00000100#8] = .error .bitsAboveCommand := rfl
theorem test_decode_rejects_bit_7 : decodeOctets [0b10000001#8] = .error .bitsAboveCommand := rfl
theorem test_decode_rejects_nothing : decodeOctets [] = .error .noOctet := rfl
theorem test_table_words : decodeTableWord 8 0 = some .enc32 ∧ decodeTableWord 8 1 = some .dec32 ∧
    decodeTableWord 8 2 = some .enc32hex ∧ decodeTableWord 8 3 = some .dec32hex ∧ decodeTableWord 8 4 = none := by decide

/-- A placed command is the first instruction after reset (R73: `ENC.END` of the empty payload). -/
theorem test_placed_runs_enc32hex :
    step (State.reset.withFetchWord 8 2) = .next { State.reset with cmd := 0b10#2, st := .done } := rfl
/-- A placed decode of the empty text (R95, R97). -/
theorem test_placed_runs_dec32 :
    step (State.reset.withFetchWord 8 1) = .next { State.reset with cmd := 0b01#2, st := .xfer } := rfl

/-! ## The functions on the spec's vectors -/

/-- "foobar" (V-S7). -/
def foobar : List Byte := [0x66#8, 0x6F#8, 0x6F#8, 0x62#8, 0x61#8, 0x72#8]
/-- "MZXW6YTBOI======" (V-S7). -/
def foobarText : List Byte :=
  [0x4D#8, 0x5A#8, 0x58#8, 0x57#8, 0x36#8, 0x59#8, 0x54#8, 0x42#8,
   0x4F#8, 0x49#8, 0x3D#8, 0x3D#8, 0x3D#8, 0x3D#8, 0x3D#8, 0x3D#8]
/-- "CPNMUOJ1E8======" (V-S7). -/
def foobarHexText : List Byte :=
  [0x43#8, 0x50#8, 0x4E#8, 0x4D#8, 0x55#8, 0x4F#8, 0x4A#8, 0x31#8,
   0x45#8, 0x38#8, 0x3D#8, 0x3D#8, 0x3D#8, 0x3D#8, 0x3D#8, 0x3D#8]
/-- "MZXW6Z==" (V-S10). -/
def badText : List Byte := [0x4D#8, 0x5A#8, 0x58#8, 0x57#8, 0x36#8, 0x5A#8, 0x3D#8, 0x3D#8]

/-- V-S7. -/
theorem test_encode_foobar : encodeMessage .standard foobar = foobarText ∧
    encodeMessage .hexExtended foobar = foobarHexText := by decide +kernel
/-- V-A12, V-A23. -/
theorem test_decode_foobar : decodeMessage .standard foobarText = some foobar ∧
    decodeMessage .hexExtended foobarHexText = some foobar := by decide +kernel
/-- V-N28: "MZXW6YT=OI======", padding out of place. -/
theorem test_misplaced_padding : decodeMessage .standard
    [0x4D#8, 0x5A#8, 0x58#8, 0x57#8, 0x36#8, 0x59#8, 0x54#8, 0x3D#8,
     0x4F#8, 0x49#8, 0x3D#8, 0x3D#8, 0x3D#8, 0x3D#8, 0x3D#8, 0x3D#8] = none := by decide +kernel
/-- V-N14: "MY===", partial padding (90_conflicts.md C2). -/
theorem test_partial_padding : decodeMessage .standard [0x4D#8, 0x59#8, 0x3D#8, 0x3D#8, 0x3D#8] = none := by decide +kernel
/-- V-E15: "FF FF FF FF", the fill bits of the last data index. -/
theorem test_encode_fill_bits : (List.range 8).map (encIdx (encBuf [0xFF#8, 0xFF#8, 0xFF#8, 0xFF#8])) =
    [31#5, 31#5, 31#5, 31#5, 31#5, 31#5, 24#5, 0#5] := by decide
/-- V-B26: "ABCDEFGH" under the hex-extended alphabet. -/
theorem test_decode_block_hex : decBlock .hexExtended
    [0x41#8, 0x42#8, 0x43#8, 0x44#8, 0x45#8, 0x46#8, 0x47#8, 0x48#8] =
    some [0x52#8, 0xD8#8, 0xD7#8, 0x3E#8, 0x11#8] := by decide +kernel
/-- V-R2, V-R5, V-R12. -/
theorem test_reverse_mapping : romDec .standard 0x5A#8 = some 25#5 ∧ romDec .hexExtended 0x5A#8 = none ∧
    romDec .hexExtended 0x30#8 = some 0#5 ∧ romDec .standard 0x61#8 = none := by decide

/-! ## Small states -/

/-- A buffer that holds `l` from address 0 on. -/
def cells (l : List Byte) : Memory := Memory.writeRange [] 0 l

/-- A state with the given command, sequencer state and message, its buffers bounded exactly. -/
def withMessage (c : CmdWord) (st : SeqState) (m : List Byte) : State :=
  { State.resetWith { inCap := some m.length, outCap := some (8 * ceilDiv m.length 5) } with
    cmd := c, st := st, inLen := m.length, inMem := cells m }

/-- `ENC32` of "foobar" before its short last group (V-T1). -/
def midEncode : State :=
  { withMessage 0b00#2 .xfer foobar with rp := 5, outLen := 8, outMem := cells (foobarText.take 8) }
/-- `DEC32` of V-S7's text before its last, partial block (V-T3). -/
def midDecode : State :=
  { withMessage 0b01#2 .xfer foobarText with rp := 8, dlen := 10, outLen := 5, outMem := cells (foobar.take 5) }

/-- V-T1, second `ENC.GROUP`. -/
theorem test_enc32_group : ∃ t, exec .enc32 midEncode = .next t ∧ t.outLen = 16 ∧ t.rp = 6 ∧
    Memory.readRange t.outMem 0 16 = some foobarText := ⟨_, rfl, rfl, rfl, rfl⟩
/-- V-T1, `ENC.END`. -/
theorem test_enc32_end : exec .enc32 { midEncode with rp := 6 } = .next { midEncode with rp := 6, st := .done } := rfl
/-- V-E6 under the hex-extended alphabet. -/
theorem test_enc32hex_group : ∃ t, exec .enc32hex midEncode = .next t ∧
    Memory.readRange t.outMem 8 8 = some (foobarHexText.drop 8) := ⟨_, rfl, rfl⟩
/-- V-T3, `DEC.CHECK`. -/
theorem test_dec32_check : exec .dec32 (withMessage 0b01#2 .check foobarText) =
    .next { withMessage 0b01#2 .check foobarText with st := .xfer, dlen := 10 } := rfl
/-- V-T5, a rejected text. -/
theorem test_dec32_rejects : exec .dec32 (withMessage 0b01#2 .check badText) =
    .next { withMessage 0b01#2 .check badText with st := .done, err := true } := rfl
/-- V-T3, second `DEC.BLOCK`. -/
theorem test_dec32_block : ∃ t, exec .dec32 midDecode = .next t ∧ t.outLen = 6 ∧ t.rp = 10 ∧
    Memory.readRange t.outMem 0 6 = some foobar := ⟨_, rfl, rfl, rfl, rfl⟩
/-- V-X1: the standard text is no hex-extended text. -/
theorem test_dec32hex_rejects : exec .dec32hex (withMessage 0b11#2 .check foobarText) =
    .next { withMessage 0b11#2 .check foobarText with st := .done, err := true } := rfl
/-- V-B12: "E8" under the hex-extended alphabet. -/
theorem test_dec32hex_block : ∃ t, exec .dec32hex { withMessage 0b11#2 .xfer [0x45#8, 0x38#8] with dlen := 2 } = .next t ∧
    Memory.readRange t.outMem 0 1 = some [0x72#8] := ⟨_, rfl, rfl⟩
/-- P4: a `WR_IN` while busy is dropped (R24). -/
theorem test_wrIn_while_busy : hostAction (.wrIn 0 0x21#8) midDecode = .next midDecode := rfl
/-- `RESET` in the middle of an operation (R126). -/
theorem test_reset_while_busy : hostAction .reset midDecode = .next (State.resetWith midDecode.caps) := rfl

/-! ## Witnesses: the hypotheses of the statements can be met -/

/-- An invariant of a busy or finished state, its message known. -/
theorem inv_of_message {s : State} {m : List Byte} (hm : message s = some m) (h1 : s.caps.wellFormed = true)
    (h2 : BuffersSound s) (h3 : LengthsSound s) (h4 : s.err = true → s.st = .done ∧ s.outLen = 0)
    (h5 : s.st = .idle → s.rp = 0 ∧ s.dlen = 0 ∧ s.outLen = 0)
    (h6 : s.st = .check → opIsDecode s = true ∧ s.rp = 0 ∧ s.dlen = 0 ∧ s.outLen = 0)
    (h7 : s.st = .xfer → opIsDecode s = false → EncodeUnderway s m)
    (h8 : s.st = .xfer → opIsDecode s = true → DecodeUnderway s m) : Inv s := by
  refine ⟨h1, h2, h3, h4, h5, h6, fun _ => by rw [hm]; rfl, fun x hx => ?_, fun x hx => ?_⟩
  all_goals
    obtain rfl : m = x := Option.some.inj (hm.symm.trans hx)
    assumption

/-- The invariant in an encode at its last, short group, the buffers exactly full (R7, R72). -/
theorem witness_inv_encode : Inv midEncode :=
  inv_of_message (m := foobar) rfl rfl ⟨rfl, rfl, by decide, by decide⟩ ⟨rfl, rfl, rfl, rfl, rfl⟩ (by decide) (by decide)
    (by decide) (fun _ _ => ⟨by decide, by decide, rfl, rfl⟩) (fun _ h => absurd h (by decide))

/-- The invariant in a decode at its last, partial block (R98). -/
theorem witness_inv_decode : Inv midDecode :=
  inv_of_message (m := foobarText) rfl rfl ⟨rfl, rfl, by decide, by decide⟩ ⟨rfl, rfl, rfl, rfl, rfl⟩ (by decide) (by decide)
    (by decide) (fun _ h => absurd h (by decide)) (fun _ _ => ⟨rfl, rfl, by decide, by decide, rfl⟩)

/-- The invariant in a decode before its check (R97). -/
theorem witness_inv_check : Inv (withMessage 0b01#2 .check foobarText) :=
  inv_of_message (m := foobarText) rfl rfl ⟨rfl, rfl, by decide, by decide⟩ ⟨rfl, rfl, rfl, rfl, rfl⟩ (by decide) (by decide)
    (by decide) (fun h => absurd h (by decide)) (fun h => absurd h (by decide))

/-- The invariant at `DONE`, with a result (R64). -/
theorem witness_inv_done : Inv { midDecode with st := .done } :=
  inv_of_message (m := foobarText) rfl rfl ⟨rfl, rfl, by decide, by decide⟩ ⟨rfl, rfl, rfl, rfl, rfl⟩ (by decide) (by decide)
    (by decide) (fun h => absurd h (by decide)) (fun h => absurd h (by decide))

theorem witness_CommandsDecodeAsEncoded : 2 ≤ 2 ∧ decodeTableWord 2 (encode .dec32hex).toNat = some .dec32hex ∧
    4 ≤ (4#8).toNat := by decide

theorem witness_StepRunsTheDecodedCommand : midEncode.agenda = [] ∧
    (∃ s : State, s.agenda = .codec :: []) ∧ ∃ (s : State) (l : HostLine), s.agenda = .host l :: [] :=
  ⟨rfl, ⟨{ State.reset with agenda := [.codec] }, rfl⟩, { State.reset with agenda := [.host .wait] }, .wait, rfl⟩

theorem witness_PlacedCommandRunsNext : decodeTableWord 8 3 = some .dec32hex ∧ decodeTableWord 16 3 = some .dec32hex := by decide

theorem witness_InvariantHoldsAtReset : tight.wellFormed = true ∧ Capacities.unbounded.wellFormed = true := by decide

theorem witness_EveryStepKeepsInvariant : Inv midEncode ∧ ∃ t, step midEncode = .next t :=
  ⟨witness_inv_encode, _, rfl⟩

theorem witness_BusyCodecAlwaysSteps : Inv midDecode ∧ busy midDecode = true ∧
    Inv (withMessage 0b01#2 .check foobarText) ∧ busy (withMessage 0b01#2 .check foobarText) = true :=
  ⟨witness_inv_decode, rfl, witness_inv_check, rfl⟩

theorem witness_OperationEndsWithinBound : Inv (withMessage 0b01#2 .check foobarText) ∧
    busy (withMessage 0b01#2 .check foobarText) = true ∧ (withMessage 0b01#2 .check foobarText).agenda = [] :=
  ⟨witness_inv_check, rfl, rfl⟩

theorem witness_LengthRegistersFitTheirWidths : Inv midEncode ∧ midEncode.caps.inCap = some 6 ∧
    midEncode.caps.outCap = some 16 ∧ 7 < 2 ^ 3 ∧ Capacities.widthFor 7 = 3 :=
  ⟨witness_inv_encode, rfl, rfl, by decide, by decide⟩

theorem witness_group_lengths : 1 ≤ [0x66#8].length ∧ [0x66#8].length ≤ 5 ∧ 1 ≤ (foobar.take 5).length ∧
    (foobar.take 5).length ≤ 5 ∧ (foobar.take 5).length = 5 := by decide

theorem witness_IndexLanesAreMadeOfByteBits : 1 ≤ 1 ∧ 1 ≤ 5 ∧ 1 < nData 1 ∧ ¬ 2 < nData 1 ∧ 7 < nData 5 := by decide

theorem witness_MatchingIsCaseSensitiveAndExact : 0x61 ≤ (0x61#8).toNat ∧ (0x7A#8).toNat ≤ 0x7A ∧ 0x80 ≤ (0xFF#8).toNat := by decide

theorem witness_TrailingRunIsTheLargest : 6 ≤ foobarText.length ∧
    (∀ c ∈ foobarText.drop (foobarText.length - 6), c = padOctet) ∧ 0 < dataLength foobarText := by decide

theorem witness_DecodedLengthFollowsDataLength : decodeMessage .standard foobarText = some foobar ∧ 0 < 4 ∧
    nBytes 7 = some 4 ∧ nBytes 8 = none := by decide +kernel

theorem witness_BlockDecodesToItsGroup : (encGroup .standard (foobar.take 5)).length = 8 ∧
    decBlock .standard (encGroup .standard (foobar.take 5)) = some (foobar.take 5) := by decide +kernel

theorem witness_DroppedBitsAreNotChecked : nBytes ([0x4D#8].length + 1) = some 1 ∧ 2 = 5 * ([0x4D#8].length + 1) - 8 * 1 ∧
    (24#5).toNat / 2 ^ 2 = (25#5).toNat / 2 ^ 2 := by decide

theorem witness_DecodeOfStrippedTextIsThePayload : decodeMessage .hexExtended foobarHexText = some foobar := by decide +kernel

theorem witness_EncodeGroupStepTakesOneGroup : midEncode.st = .xfer ∧ midEncode.rp < midEncode.inLen ∧
    Memory.readRange midEncode.inMem midEncode.rp (min 5 (midEncode.inLen - midEncode.rp)) = some [0x72#8] ∧
    Capacities.fits midEncode.caps.outCap (midEncode.outLen + 8) = true := by decide

/-- `START` is the next turn of a codec that has just been reset and loaded. -/
def readyState (c : CmdWord) (m : List Byte) : State :=
  { withMessage c .idle m with agenda := [.host (.act .start)] }

/-- An operation with turns of the host between its codec steps and after its end. -/
def pacedState (c : CmdWord) (m : List Byte) (between : List HostAction) : State :=
  { withMessage c .idle m with
    agenda := .host (.act .start) :: .codec :: (between.map fun a => Turn.host (.act a)) ++ [.codec, .codec, .host (.act .rdOutLen)] }

theorem pacedState_ready (c : CmdWord) {m : List Byte} (between : List HostAction)
    (h : message (withMessage c .idle m) = some m) (hw : (withMessage c .idle m).caps.wellFormed = true) :
    MessageReady (pacedState c m between) m :=
  ⟨hw, rfl, decide_eq_true (Nat.le_refl _), h⟩

/-- A run as OperationRun asks for it: `k` busy states, then `DONE` up to step `n`. -/
theorem operationRun_of {s t : State} {m : List Byte} (k n : Nat) (hr : MessageReady s m) (hs : hostNext s .start) (hk : k < n)
    (hb : ∀ j, j < k → (match runFor (j + 1) s with | .next u => busy u | _ => false) = true)
    (hd : ∀ j, j < n - k → (match runFor (k + 1 + j) s with | .next u => decide (u.st = .done) | _ => false) = true)
    (ht : runFor n s = .next t) : OperationRun s m t := by
  refine ⟨hr, hs, k, n, hk, fun j h1 h2 => ?_, fun j h1 h2 => ?_, ht⟩
  · have h := hb (j - 1) (by omega)
    rw [Nat.sub_add_cancel h1] at h
    split at h
    · next u hu => exact ⟨u, hu, h⟩
    · cases h
  · have h := hd (j - (k + 1)) (by omega)
    rw [Nat.add_sub_cancel' h1] at h
    split at h
    · next u hu => exact ⟨u, hu, of_decide_eq_true h⟩
    · cases h

/-- Host turns that try to change the message, and a read of the status. -/
def meddling : List HostAction := [.wrInLen 0, .wrIn 0 0x21#8, .wrCmd 0b01#2, .rdStatus, .start]

theorem witness_EncodeOperationGivesTheText_paced : (pacedState 0b00#2 foobar meddling).cmd = encode .enc32 ∧
    ∃ t, OperationRun (pacedState 0b00#2 foobar meddling) foobar t :=
  ⟨rfl, _, operationRun_of 8 10 (pacedState_ready _ _ rfl rfl) ⟨_, rfl⟩ (by decide) (by decide +kernel) (by decide +kernel) rfl⟩

theorem witness_DecodeOperationGivesTheBytes_paced :
    (pacedState 0b11#2 (foobarHexText.take 8) meddling).cmd = encode .dec32hex ∧
    decodeMessage (alphabetOfInstr .dec32hex) (foobarHexText.take 8) = some (foobar.take 5) ∧
    ∃ t, OperationRun (pacedState 0b11#2 (foobarHexText.take 8) meddling) (foobarHexText.take 8) t :=
  ⟨rfl, rfl, _,
    operationRun_of 8 10 (pacedState_ready _ _ rfl rfl) ⟨_, rfl⟩ (by decide) (by decide +kernel) (by decide +kernel) rfl⟩

theorem witness_RejectedDecodeHasNoOtherEffect_paced : (pacedState 0b01#2 badText [.rdIn 0]).cmd = encode .dec32 ∧
    decodeMessage (alphabetOfInstr .dec32) badText = none ∧
    ∃ t, OperationRun (pacedState 0b01#2 badText [.rdIn 0]) badText t :=
  ⟨rfl, rfl, _,
    operationRun_of 1 6 (pacedState_ready _ _ rfl rfl) ⟨_, rfl⟩ (by decide) (by decide +kernel) (by decide +kernel) rfl⟩

theorem witness_EncodeEndStepOnlySetsDone :
    { midEncode with rp := 6 }.st = .xfer ∧ { midEncode with rp := 6 }.rp = { midEncode with rp := 6 }.inLen ∧
    ReadyToStart (readyState 0b10#2 []) [] ∧ opIsDecode (readyState 0b10#2 []) = false :=
  ⟨rfl, rfl, ⟨⟨rfl, rfl, rfl, rfl⟩, rfl⟩, rfl⟩

theorem witness_EncodeProgressesGroupByGroup : ReadyToStart (readyState 0b10#2 foobar) foobar ∧
    opIsDecode (readyState 0b10#2 foobar) = false ∧ 2 ≤ ceilDiv foobar.length 5 :=
  ⟨⟨⟨rfl, rfl, rfl, rfl⟩, rfl⟩, rfl, by decide⟩

theorem witness_EncodeOperationGivesTheText : (readyState 0b10#2 foobar).cmd = encode .enc32hex ∧
    ReadyToStart (readyState 0b10#2 foobar) foobar ∧ (readyState 0b00#2 foobar).cmd = encode .enc32 ∧
    ReadyToStart (readyState 0b00#2 foobar) foobar :=
  ⟨rfl, ⟨⟨rfl, rfl, rfl, rfl⟩, rfl⟩, rfl, ⟨⟨rfl, rfl, rfl, rfl⟩, rfl⟩⟩

theorem witness_EncodeStepFrame : (∃ t, exec .enc32 midEncode = .next t) ∧
    (∃ t, exec .enc32hex { midEncode with rp := 6 } = .next t) ∧
    ¬({ midEncode with rp := 6 }.st = .xfer ∧ { midEncode with rp := 6 }.rp < { midEncode with rp := 6 }.inLen) :=
  ⟨⟨_, rfl⟩, ⟨_, rfl⟩, by decide⟩

theorem witness_DecodeCheckStepAcceptsOrRaises :
    (withMessage 0b01#2 .check foobarText).st = .check ∧
    message (withMessage 0b01#2 .check foobarText) = some foobarText ∧ validText .standard foobarText = true ∧
    message (withMessage 0b01#2 .check badText) = some badText ∧ validText .standard badText = false :=
  ⟨rfl, rfl, rfl, rfl, rfl⟩

theorem witness_DecodeBlockStepTakesOneBlock : midDecode.st = .xfer ∧ midDecode.rp < midDecode.dlen ∧
    midDecode.dlen ≤ midDecode.inLen ∧
    Memory.readRange midDecode.inMem midDecode.rp (min 8 (midDecode.dlen - midDecode.rp)) = some [0x4F#8, 0x49#8] ∧
    decBlock .standard [0x4F#8, 0x49#8] = some [0x72#8] ∧
    Capacities.fits midDecode.caps.outCap (midDecode.outLen + 1) = true := by decide +kernel

theorem witness_DecodeEndStepOnlySetsDone : { midDecode with rp := 10 }.st = .xfer ∧
    { midDecode with rp := 10 }.rp = { midDecode with rp := 10 }.dlen ∧ validText .standard [] = true ∧
    validText .standard foobarText = true := ⟨rfl, rfl, rfl, rfl⟩

theorem witness_DecodeEndStepOnlySetsDone_check :
    (withMessage 0b11#2 .check []).st = .check ∧ (withMessage 0b11#2 .check []).rp = 0 ∧
    message (withMessage 0b11#2 .check []) = some [] ∧ validText (alphabetOfInstr .dec32hex) [] = true ∧
    (withMessage 0b01#2 .check foobarText).st = .check ∧ (withMessage 0b01#2 .check foobarText).rp = 0 ∧
    message (withMessage 0b01#2 .check foobarText) = some foobarText ∧
    validText (alphabetOfInstr .dec32) foobarText = true ∧ foobarText ≠ [] :=
  ⟨rfl, rfl, rfl, rfl, rfl, rfl, rfl, rfl, by decide⟩

theorem witness_DecodeProgressesBlockByBlock : ReadyToStart (readyState 0b01#2 foobarText) foobarText ∧
    opIsDecode (readyState 0b01#2 foobarText) = true ∧
    validText (alphabetOf (readyState 0b01#2 foobarText).cmd) foobarText = true ∧ 2 ≤ ceilDiv (dataLength foobarText) 8 :=
  ⟨⟨⟨rfl, rfl, rfl, rfl⟩, rfl⟩, rfl, rfl, by decide⟩

theorem witness_DecodeOperationGivesTheBytes : (readyState 0b01#2 foobarText).cmd = encode .dec32 ∧
    ReadyToStart (readyState 0b01#2 foobarText) foobarText ∧
    decodeMessage (alphabetOfInstr .dec32) foobarText = some foobar ∧
    (readyState 0b11#2 foobarHexText).cmd = encode .dec32hex ∧ ReadyToStart (readyState 0b11#2 foobarHexText) foobarHexText ∧
    decodeMessage (alphabetOfInstr .dec32hex) foobarHexText = some foobar :=
  ⟨rfl, ⟨⟨rfl, rfl, rfl, rfl⟩, rfl⟩, rfl, rfl, ⟨⟨rfl, rfl, rfl, rfl⟩, rfl⟩, rfl⟩

theorem witness_RejectedDecodeHasNoOtherEffect : (readyState 0b11#2 badText).cmd = encode .dec32hex ∧
    ReadyToStart (readyState 0b11#2 badText) badText ∧ decodeMessage (alphabetOfInstr .dec32hex) badText = none :=
  ⟨rfl, ⟨⟨rfl, rfl, rfl, rfl⟩, rfl⟩, rfl⟩

theorem witness_DecodeStepFrame : (∃ t, exec .dec32 midDecode = .next t) ∧ midDecode.st ≠ .check ∧
    blockBytes (min 8 (midDecode.dlen - midDecode.rp)) = some 1 ∧
    (∃ t, exec .dec32hex (withMessage 0b11#2 .check badText) = .next t) ∧
    ¬((withMessage 0b11#2 .check badText).st = .xfer) := ⟨⟨_, rfl⟩, by decide, rfl, ⟨_, rfl⟩, by decide⟩

theorem witness_CodecWaitsWhileNotBusy : busy State.reset = false ∧ busy { midDecode with st := .done } = false := by decide

theorem witness_StepsOutsideTheTableStopByName_encode :
    { midEncode with st := .check }.st = .check ∧
    ({ midEncode with rp := 7 }.st = .xfer ∧ { midEncode with rp := 7 }.inLen < { midEncode with rp := 7 }.rp) ∧
    (5 - 1 < 0 + min 5 (6 - 0) ∧ Memory.read (cells (foobar.take 4)) 4 = none) ∧
    (midEncode.rp < midEncode.inLen ∧
      (Memory.readRange midEncode.inMem midEncode.rp (min 5 (midEncode.inLen - midEncode.rp))).isSome = true ∧
      Capacities.fits midEncode.caps.outCap (9 + 8) = false) := by decide

theorem witness_StepsOutsideTheTableStopByName_decode :
    { midDecode with rp := 11 }.dlen < { midDecode with rp := 11 }.rp ∧
    message { withMessage 0b01#2 .check foobarText with inMem := [] } = none ∧
    (midDecode.rp < midDecode.dlen ∧ 9 < midDecode.rp + min 8 (midDecode.dlen - midDecode.rp) ∧
      midDecode.rp + min 8 (midDecode.dlen - midDecode.rp) ≤ midDecode.inLen) ∧
    Memory.read (cells (foobarText.take 9)) 9 = none ∧
    decBlock .standard (foobarText.drop 9 |>.take 1) = none ∧
    decBlock .standard (foobarText.drop 8 |>.take 2) = some [0x72#8] ∧
    Capacities.fits midDecode.caps.outCap (32 + 1) = false := by decide +kernel

/-- The invariant in a decode whose check is about to fail (R97). -/
theorem witness_inv_rejecting : Inv (withMessage 0b01#2 .check badText) :=
  inv_of_message (m := badText) rfl rfl ⟨rfl, rfl, by decide, by decide⟩ ⟨rfl, rfl, rfl, rfl, rfl⟩ (by decide) (by decide)
    (by decide) (fun h => absurd h (by decide)) (fun h => absurd h (by decide))

theorem witness_ResultDependsOnMessageOnly_step : Inv (withMessage 0b01#2 .check badText) ∧
    busy (withMessage 0b01#2 .check badText) = true ∧ message (withMessage 0b01#2 .check badText) = some badText ∧
    ¬ hostNext (withMessage 0b01#2 .check badText) .reset ∧
    ∃ t, step (withMessage 0b01#2 .check badText) = .next t ∧ t.st = .done := by
  refine ⟨witness_inv_rejecting, rfl, rfl, ?_, _, rfl, rfl⟩
  rintro ⟨rest, h⟩
  cases h

theorem witness_ResultDependsOnMessageOnly :
    (∃ t, OperationRun (readyState 0b00#2 [0x66#8]) [0x66#8] t) ∧
    (∃ t, OperationRun { pacedState 0b00#2 [0x66#8] meddling with rp := 1, st := .done, outMem := cells [1#8] } [0x66#8] t) ∧
    (readyState 0b00#2 [0x66#8]).cmd = (pacedState 0b00#2 [0x66#8] meddling).cmd :=
  ⟨⟨_, operationRun_of 2 5 ⟨rfl, rfl, rfl, rfl⟩ ⟨_, rfl⟩ (by decide) (by decide +kernel) (by decide +kernel) rfl⟩,
    ⟨_, operationRun_of 7 9 ⟨rfl, rfl, rfl, rfl⟩ ⟨_, rfl⟩ (by decide) (by decide +kernel) (by decide +kernel) rfl⟩, rfl⟩

theorem witness_GatedActionsAreDroppedWhileBusy (a : HostAction) : busy { midDecode with agenda := [.host (.act a)] } = true ∧
    { midDecode with agenda := [.host (.act a)] }.agenda = .host (.act a) :: [] := ⟨rfl, rfl⟩

theorem witness_HostWritesTakeEffectWhenNotBusy : busy (State.resetWith tight) = false ∧
    Capacities.fits tight.inCap 5 = true ∧ Capacities.hasAddress tight.inCap 4 = true ∧
    { State.resetWith tight with agenda := [.host (.act (.wrIn 4 1#8))] }.agenda = .host (.act (.wrIn 4 1#8)) :: [] :=
  ⟨rfl, rfl, rfl, rfl⟩

theorem witness_WrInLenWrInRdInOutsideRangeStop : Capacities.fits (State.resetWith tight).caps.inCap 6 = false ∧
    Capacities.hasAddress (State.resetWith tight).caps.inCap 5 = false ∧ busy (State.resetWith tight) = false := by decide

theorem witness_StartBeginsTheOperation : busy (readyState 0b01#2 foobarText) = false ∧
    (readyState 0b01#2 foobarText).agenda = .host (.act .start) :: [] ∧
    ∀ a, a < (readyState 0b01#2 foobarText).inLen →
      ∃ v, Memory.read (readyState 0b01#2 foobarText).inMem a = some v := by
  refine ⟨rfl, rfl, fun a ha => Option.isSome_iff_exists.1 ?_⟩
  have h : ∀ a, a < 16 → (Memory.read (readyState 0b01#2 foobarText).inMem a).isSome = true := by decide
  exact h a ha

theorem witness_StartOverUnwrittenCellIsRefused :
    (∃ t, hostAction .reset midDecode = .next t) ∧ busy { readyState 0b00#2 foobar with inMem := [] } = false ∧
    hostNext { readyState 0b00#2 foobar with inMem := [] } .start ∧
    Memory.read { readyState 0b00#2 foobar with inMem := [] }.inMem 5 = none ∧ ∃ t, exec .enc32 midEncode = .next t :=
  ⟨⟨_, rfl⟩, rfl, ⟨[], rfl⟩, rfl, _, rfl⟩

theorem witness_ResetActsInAnyState :
    { midDecode with agenda := [.host (.act .reset)] }.agenda = .host (.act .reset) :: [] := rfl

theorem witness_ReadsHaveNoSideEffect : (∃ t, hostAction (.rdIn 3) midDecode = .next t) ∧
    (∃ t, hostAction .rdStatus midDecode = .next t) ∧ ∃ t, exec .dec32 midDecode = .next t :=
  ⟨⟨_, rfl⟩, ⟨_, rfl⟩, _, rfl⟩

theorem witness_ResultIsReadableAtDone : Inv { midDecode with st := .done } ∧ { midDecode with st := .done }.st = .done ∧
    4 < { midDecode with st := .done }.outLen := ⟨witness_inv_done, rfl, by decide⟩

theorem witness_ResultIsReadableAtDone_idle : Inv (withMessage 0b00#2 .idle foobar) ∧ (withMessage 0b00#2 .idle foobar).st = .idle :=
  ⟨inv_of_message (m := foobar) rfl rfl ⟨rfl, rfl, by decide, by decide⟩ ⟨rfl, rfl, rfl, rfl, rfl⟩ (by decide) (by decide)
    (by decide) (fun h => absurd h (by decide)) (fun h => absurd h (by decide)), rfl⟩

theorem witness_HostReadsComplete_stored : Capacities.hasAddress midDecode.caps.inCap 15 = true ∧
    Memory.read midDecode.inMem 15 = some 0x3D#8 := by decide

theorem witness_HostReadsComplete_unspecified : busy midDecode = true ∧ midDecode.st ≠ .done ∧
    { midDecode with st := .done }.outLen ≤ 5 ∧
    Capacities.hasAddress (State.resetWith tight).caps.inCap 4 = true ∧
    Memory.read (State.resetWith tight).inMem 4 = none := by decide

theorem witness_MessageIsFrozenWhileBusy : busy { midDecode with agenda := [.host (.act (.wrInLen 0))] } = true ∧
    ¬ hostNext { midDecode with agenda := [.host (.act (.wrInLen 0))] } .reset ∧
    ∃ t, step { midDecode with agenda := [.host (.act (.wrInLen 0))] } = .next t := by
  refine ⟨rfl, ?_, _, rfl⟩
  rintro ⟨rest, h⟩
  cases h

/-- `DONE` with `ERR = 1`, the host's next line given. -/
def failed (l : HostLine) : State :=
  { withMessage 0b01#2 .done badText with err := true, agenda := [.host l] }

theorem witness_ErrorStatusPersistsUntilStartOrReset :
    ((failed .wait).st = .done ∧ ¬ hostNext (failed .wait) .start ∧ ¬ hostNext (failed .wait) .reset ∧
      ∃ t, step (failed .wait) = .next t) ∧
    (hostNext (failed (.act .start)) .start ∧ ∃ t, step (failed (.act .start)) = .next t) ∧
    (hostNext (failed (.act .reset)) .reset ∧ ∃ t, step (failed (.act .reset)) = .next t) := by
  refine ⟨⟨rfl, ?_, ?_, _, rfl⟩, ⟨⟨[], rfl⟩, _, rfl⟩, ⟨⟨[], rfl⟩, _, rfl⟩⟩
  all_goals
    rintro ⟨rest, h⟩
    cases h

theorem witness_LoadPlacesTheMessage : busy { State.resetWith tight with agenda := [.host (.load (foobar.take 5))] } = false ∧
    Capacities.fits tight.inCap (foobar.take 5).length = true := by decide

theorem witness_CopybackMakesTheResultTheMessage :
    Inv { midDecode with st := .done, agenda := [.host .copyback] } ∧
    Capacities.fits midDecode.caps.inCap midDecode.outLen = true :=
  ⟨inv_of_message (m := foobarText) rfl rfl ⟨rfl, rfl, by decide, by decide⟩ ⟨rfl, rfl, rfl, rfl, rfl⟩ (by decide) (by decide)
    (by decide) (fun h => absurd h (by decide)) (fun h => absurd h (by decide)), by decide⟩

theorem witness_CallsGiveTheFunctionsResult : tight.wellFormed = true ∧ Capacities.fits tight.inCap [0x66#8].length = true := by decide

end Sys2Proof.Tests
end

section
/-! SUPPORT. The scope family (00_scope.md): the widths of the length registers (R7), where a codec step stops by name (R8, R18, R26,
R90, R133; log entry 9). -/

namespace Sys2Proof.Machine

/-! ## The widths of the length registers -/

/-- The width of a capacity is the least that holds it (R7). -/
theorem Capacities.widthFor_le_iff (c w : Nat) : Capacities.widthFor c ≤ w ↔ c < 2 ^ w := by
  unfold Capacities.widthFor
  split
  · next h => simp [h]
  · next h => rw [Nat.succ_le_iff, Nat.log2_lt h]

/-- A length within a capacity fits the capacity's width (R7, R14). -/
theorem Capacities.lt_two_pow_widthFor {cap : Option Nat} {c n : Nat} (hc : cap = some c)
    (h : Capacities.fits cap n = true) : n < 2 ^ Capacities.widthFor c := by
  subst hc
  have hn : n ≤ c := of_decide_eq_true h
  exact hn.trans_lt ((Capacities.widthFor_le_iff c _).1 le_rfl)

/-- Settles O11: the invariant bounds each length by its capacity, and a capacity's width is the least that holds it. -/
theorem lengthRegistersFitTheirWidths : Obligations.LengthRegistersFitTheirWidths := by
  refine ⟨fun s hs c hc => ?_, fun s hs c hc => ?_, fun c w => (Capacities.widthFor_le_iff c w).2⟩
  · exact ⟨Capacities.lt_two_pow_widthFor hc hs.lengths.rpFits, Capacities.lt_two_pow_widthFor hc hs.lengths.dlenFits,
      Capacities.lt_two_pow_widthFor hc hs.lengths.inLenFits⟩
  · exact Capacities.lt_two_pow_widthFor hc hs.lengths.outLenFits

/-! ## The commands by direction -/

/-- An encode command takes the encode step of its alphabet (R46, R74, R75). -/
theorem exec_encode {i : Instr} (hi : i = .enc32 ∨ i = .enc32hex) (s : State) :
    exec i s = encStep (alphabetOfInstr i) s := by
  rcases hi with rfl | rfl <;> rfl

/-- A decode command takes the decode step of its alphabet (R46, R100, R101). -/
theorem exec_decode {i : Instr} (hi : i = .dec32 ∨ i = .dec32hex) (s : State) :
    exec i s = decStep (alphabetOfInstr i) s := by
  rcases hi with rfl | rfl <;> rfl

section Stops
variable {s : State} {α : Alphabet}

/-! ## Where the shared operations stop -/

theorem memRead_past {a n : Nat} (h : s.inLen < a + n) (k : List Byte → Host.Outcome State Fault Refusal) :
    memRead a n s k = .fault .readPastMessage := if_neg h.not_ge

theorem memRead_unwritten {a n : Nat} (hle : a + n ≤ s.inLen) (hm : Memory.readRange s.inMem a n = none)
    (k : List Byte → Host.Outcome State Fault Refusal) : memRead a n s k = .refused .messageCellUnwritten := by
  simp [memRead, hle, hm]

theorem memAppend_overflow {bs : List Byte} (h : Capacities.fits s.caps.outCap (s.outLen + bs.length) = false) (d : Nat) :
    memAppend bs d s = .fault .outOverflow := by
  simp [memAppend, h]

/-! ## The rows of R18's table, and the busy states without one -/

theorem encStep_check (hs : s.st = .check) : encStep α s = .fault .noStepEnabled := by
  simp [encStep, hs]

theorem encStep_group (hs : s.st = .xfer) (h : s.rp < s.inLen) : encStep α s = encGroupStep α s := by
  simp [encStep, hs, h]

theorem encStep_past (hs : s.st = .xfer) (h : s.inLen < s.rp) : encStep α s = .fault .noStepEnabled := by
  simp [encStep, hs, h.not_gt, h.ne']

theorem decStep_check (hs : s.st = .check) : decStep α s = decCheckStep α s := by
  simp [decStep, hs]

theorem decStep_block (hs : s.st = .xfer) (h : s.rp < s.dlen) : decStep α s = decBlockStep α s := by
  simp [decStep, hs, h]

theorem decStep_past (hs : s.st = .xfer) (h : s.dlen < s.rp) : decStep α s = .fault .noStepEnabled := by
  simp [decStep, hs, h.not_gt, h.ne']

/-! ## Where `ENC.GROUP`, `DEC.CHECK` and `DEC.BLOCK` stop -/

/-- `ENC.GROUP` over a cell that holds no value (R133); the cells of a group lie within the message. -/
theorem encGroupStep_unwritten {a : Nat} (h : s.rp < s.inLen) (h1 : s.rp ≤ a)
    (h2 : a < s.rp + min 5 (s.inLen - s.rp)) (ha : Memory.read s.inMem a = none) :
    encGroupStep α s = .refused .messageCellUnwritten :=
  memRead_unwritten (by omega) (Memory.readRange_eq_none h1 h2 ha) _

/-- `ENC.GROUP` whose eight symbols do not fit `OUT` (R8). -/
theorem encGroupStep_overflow (h : s.rp < s.inLen)
    (hm : (Memory.readRange s.inMem s.rp (min 5 (s.inLen - s.rp))).isSome = true)
    (hf : Capacities.fits s.caps.outCap (s.outLen + 8) = false) : encGroupStep α s = .fault .outOverflow := by
  obtain ⟨g, hg⟩ := Option.isSome_iff_exists.1 hm
  calc encGroupStep α s = memAppend (encGroup α g) (min 5 (s.inLen - s.rp)) s := memRead_eq (by omega) hg _
    _ = .fault .outOverflow := memAppend_overflow (by rwa [encGroup_length]) _

/-- `DEC.CHECK` over a message with a cell that holds no value (R133). -/
theorem decCheckStep_unwritten (hm : message s = none) : decCheckStep α s = .refused .messageCellUnwritten :=
  memRead_unwritten (Nat.zero_add _).le hm _

/-- `DEC.BLOCK` past the end of the message (R8). -/
theorem decBlockStep_past (h : s.inLen < s.rp + min 8 (s.dlen - s.rp)) :
    decBlockStep α s = .fault .readPastMessage := memRead_past h _

section Block
variable (hle : s.rp + min 8 (s.dlen - s.rp) ≤ s.inLen)
include hle

/-- `DEC.BLOCK` over a cell that holds no value (R133). -/
theorem decBlockStep_unwritten {a : Nat} (h1 : s.rp ≤ a) (h2 : a < s.rp + min 8 (s.dlen - s.rp))
    (ha : Memory.read s.inMem a = none) : decBlockStep α s = .refused .messageCellUnwritten :=
  memRead_unwritten hle (Memory.readRange_eq_none h1 h2 ha) _

variable {x : List Byte} (hx : Memory.readRange s.inMem s.rp (min 8 (s.dlen - s.rp)) = some x)
include hx

/-- `DEC.BLOCK` on a block outside the domain of `DecBlock` (R90). -/
theorem decBlockStep_outside (hb : decBlock α x = none) : decBlockStep α s = .fault .blockOutsideDomain := by
  rw [decBlockStep, memRead_eq hle hx, hb]

/-- `DEC.BLOCK` on a block in the domain: all that is left is the append (R98). -/
theorem decBlockStep_append {bytes : List Byte} (hb : decBlock α x = some bytes) :
    decBlockStep α s = memAppend bytes (min 8 (s.dlen - s.rp)) s := by
  rw [decBlockStep, memRead_eq hle hx, hb]

end Block
end Stops

/-- Settles O45, direction by direction: the step is the row R18 gives for the state, and that row's read or append stops. -/
theorem stepsOutsideTheTableStopByName : Obligations.StepsOutsideTheTableStopByName := by
  refine ⟨fun i s hi => ?encode, fun i s hi => ?decode⟩
  case encode =>
    rw [exec_encode hi]
    refine ⟨?_, fun hs a h1 h2 ha => ?_, fun hs h hm hf => ?_⟩
    · rintro (hs | ⟨hs, h⟩)
      · exact encStep_check hs
      · exact encStep_past hs h
    · have h : s.rp < s.inLen := by omega
      rw [encStep_group hs h, encGroupStep_unwritten h h1 h2 ha]
    · rw [encStep_group hs h, encGroupStep_overflow h hm hf]
  case decode =>
    rw [exec_decode hi]
    refine ⟨decStep_past, fun hs hm => ?_, fun hs h => ?_⟩
    · rw [decStep_check hs, decCheckStep_unwritten hm]
    · rw [decStep_block hs h]
      refine ⟨decBlockStep_past, fun hle => ⟨fun a => decBlockStep_unwritten hle, fun x hx => ?_⟩⟩
      refine ⟨decBlockStep_outside hle hx, fun bytes hb hf => ?_⟩
      rw [decBlockStep_append hle hx hb, memAppend_overflow hf]

end Sys2Proof.Machine
end

section
/-! SUPPORT. The state family (10_state.md): whose turn a step is (R9, R18), what the host's actions do and when they are dropped
(R24, R129, R132), the state after reset (R22). -/

namespace Sys2Proof.Machine

/-! ## Whose turn it is -/

theorem step_empty {s : State} (h : s.agenda = []) : step s = exec (fetchCommand s) s := by
  simp only [step, h]

theorem step_codec {s : State} {rest : List Turn} (h : s.agenda = .codec :: rest) :
    step s = exec (fetchCommand s) (s.setAgenda rest) := by
  simp only [step, h]

theorem step_host {s : State} {l : HostLine} {rest : List Turn} (h : s.agenda = .host l :: rest) :
    step s = hostTurn l (s.setAgenda rest) := by
  simp only [step, h]

/-- Settles O4: one equation per form of the agenda. -/
theorem stepRunsTheDecodedCommand : Obligations.StepRunsTheDecodedCommand :=
  ⟨fun _ => step_empty, fun _ _ => step_codec, fun _ _ _ => step_host⟩

/-! ## A placed command -/

/-- Every command word is the encoding of the command it decodes to (R46). -/
theorem encode_decodeCmd : ∀ c : CmdWord, encode (decodeCmd c) = c := by decide

/-- Octets that decode begin with the octet that carries the command (log entry 11). -/
theorem decodeOctets_cons_ok {b : Byte} {bs rest : List Byte} {i : Instr} (h : decodeOctets (b :: bs) = .ok (i, rest)) :
    decodeCmd (b.extractLsb' 0 2) = i := by
  simp only [decodeOctets] at h
  split at h
  · exact congrArg Prod.fst (Except.ok.inj h)
  · cases h

/-- The octets of a table word that is read as a command decode to it. -/
theorem decodeOctets_of_decodeTableWord {nbits w : Nat} {i : Instr} (h : decodeTableWord nbits w = some i) :
    ∃ rest, decodeOctets (octetsOf ((nbits + 7) / 8) (w % 2 ^ nbits)) = .ok (i, rest) := by
  unfold decodeTableWord at h
  split at h
  · next j rest hj =>
    split at h
    · exact ⟨rest, Option.some.inj h ▸ hj⟩
    · cases h
  · cases h

/-- The command word of a table word is its two low bits (R45; log entry 11). -/
theorem encode_of_decodeTableWord {nbits w : Nat} {i : Instr} (h : decodeTableWord nbits w = some i) :
    BitVec.ofNat 2 (w % 2 ^ nbits) = encode i := by
  obtain ⟨rest, h⟩ := decodeOctets_of_decodeTableWord h
  generalize w % 2 ^ nbits = v at h ⊢
  generalize (nbits + 7) / 8 = k at h
  cases k with
  | zero => cases h
  | succ k =>
    have hlow : (BitVec.ofNat 8 v).extractLsb' 0 2 = BitVec.ofNat 2 v := by
      apply BitVec.eq_of_toNat_eq
      simp only [BitVec.extractLsb'_toNat, BitVec.toNat_ofNat, Nat.shiftRight_zero]
      omega
    rw [← decodeOctets_cons_ok h, encode_decodeCmd, hlow]

/-- Bit 0 of a command's word is its direction (R45, R46). -/
theorem opIsDecode_of_encode {s : State} {i : Instr} (h : s.cmd = encode i) :
    opIsDecode s = decide (i = .dec32 ∨ i = .dec32hex) := by
  rw [opIsDecode, h]; cases i <;> rfl

/-- Settles O5: the word placed is `i`'s encoding, so the codec's turn that withFetchWord puts first runs `i`. -/
theorem placedCommandRunsNext : Obligations.PlacedCommandRunsNext := by
  intro s nbits w i h
  have hc : decodeCmd (encode i) = i := by cases i <;> rfl
  have hop : opIsDecode (s.setCmd (encode i)) = decide (i = .dec32 ∨ i = .dec32hex) := opIsDecode_of_encode rfl
  rw [State.withFetchWord, encode_of_decodeTableWord h, step_codec (rest := s.agenda) rfl]
  simp only [fetchCommand, State.startCommand, State.setAgenda_cmd, State.begin_cmd, State.setCmd_cmd, hc]
  simp only [State.begin, hop, decide_eq_true_eq]
  rfl

/-! ## The gate -/

theorem gated_busy {s : State} (h : busy s = true) (e : Host.Outcome State Fault Refusal) : gated s e = .next s :=
  if_pos h

theorem gated_notBusy {s : State} (h : busy s = false) (e : Host.Outcome State Fault Refusal) : gated s e = e := by
  simp [gated, h]

@[simp] theorem busy_setAgenda (s : State) (l : List Turn) : busy (s.setAgenda l) = busy s := rfl

/-- Settles O47: each of the four actions is `gated`. -/
theorem gatedActionsAreDroppedWhileBusy : Obligations.GatedActionsAreDroppedWhileBusy := by
  intro s a rest hb hag ha
  rw [step_host hag]
  have hb' : busy (s.setAgenda rest) = true := hb
  rcases ha with rfl | ⟨c, rfl⟩ | ⟨n, rfl⟩ | ⟨b, v, rfl⟩ <;> exact gated_busy hb' _

/-- Settles O48: past the gate each write is one register or cell update. -/
theorem hostWritesTakeEffectWhenNotBusy : Obligations.HostWritesTakeEffectWhenNotBusy := by
  intro s rest hb
  have hb' : busy (s.setAgenda rest) = false := hb
  refine ⟨fun c hag => ?_, fun n hag hn => ?_, fun a v hag ha => ?_⟩
  · rw [step_host hag]
    exact gated_notBusy hb' _
  · rw [step_host hag]
    exact (gated_notBusy hb' _).trans (if_pos hn)
  · refine ⟨(s.setAgenda rest).storeIn a v, ?_, Memory.read_write_same _ a v,
      fun b => Memory.read_write_other _ v, rfl⟩
    rw [step_host hag]
    exact (gated_notBusy hb' _).trans (if_pos ha)

/-- Settles O49: the range checks fail. -/
theorem wrInLenWrInRdInOutsideRangeStop : Obligations.WrInLenWrInRdInOutsideRangeStop := by
  refine fun s => ⟨fun n hn hb => ?_, fun a v ha hb => ?_, fun a ha => ?_⟩
  · exact (gated_notBusy hb _).trans (if_neg (by simp [hn]))
  · exact (gated_notBusy hb _).trans (if_neg (by simp [ha]))
  · exact if_neg (by simp [ha])

/-! ## `START` -/

/-- A range whose cells all hold a value is read (R8). -/
theorem Memory.exists_readRange {m : Memory} {a n : Nat}
    (h : ∀ b, a ≤ b → b < a + n → ∃ v, Memory.read m b = some v) : ∃ l, Memory.readRange m a n = some l := by
  induction n generalizing a with
  | zero => exact ⟨[], rfl⟩
  | succ n ih =>
    obtain ⟨v, hv⟩ := h a le_rfl (by omega)
    obtain ⟨vs, hvs⟩ := ih (a := a + 1) fun b h1 h2 => h b (by omega) (by omega)
    exact ⟨v :: vs, (Memory.readRange_succ m a n _).2 ⟨v, vs, rfl, hv, hvs⟩⟩

theorem actStart_of_message {s : State} {m : List Byte} (hb : busy s = false) (hm : message s = some m) :
    actStart s = .next s.begin := by
  rw [actStart, gated_notBusy hb, hm]

/-- Settles O50: the message is held, so `START` passes its gate and its check. -/
theorem startBeginsTheOperation : Obligations.StartBeginsTheOperation := by
  intro s rest hb hag hheld
  obtain ⟨m, hm⟩ : ∃ m, message s = some m :=
    Memory.exists_readRange fun a _ ha => hheld a (by rwa [Nat.zero_add] at ha)
  rw [step_host hag]
  exact actStart_of_message (s := s.setAgenda rest) hb hm

/-! ## The host's reads -/

theorem actRdStatus_busy {s : State} (h : busy s = true) :
    actRdStatus s = .next ((s.reply (.status true false (Config.freeBit s.draws))).draw) := if_pos h

theorem actRdStatus_notBusy {s : State} (h : busy s = false) :
    actRdStatus s = .next (s.reply (.status false (doneView s) s.err)) := by
  simp [actRdStatus, h]

theorem actRdOutLen_busy {s : State} (h : busy s = true) :
    actRdOutLen s = .next ((s.reply (.outLen (Config.freeLength s.draws))).draw) := if_pos h

theorem actRdOutLen_notBusy {s : State} (h : busy s = false) :
    actRdOutLen s = .next (s.reply (.outLen s.outLen)) := by
  simp [actRdOutLen, h]

theorem actRdOut_result {s : State} {a : Nat} {v : Byte} (hs : s.st = .done) (ha : a < s.outLen)
    (hv : Memory.read s.outMem a = some v) : actRdOut a s = .next (s.reply (.outOctet v)) := by
  simp [actRdOut, resultOctet, hs, ha, hv]

theorem actRdOut_outside {s : State} {a : Nat} (h : s.st ≠ .done ∨ s.outLen ≤ a) :
    actRdOut a s = .next ((s.reply (.outOctet (Config.freeOctet s.draws))).draw) := by
  have hr : resultOctet a s = none := by
    rw [resultOctet, if_neg]
    rcases h with h | h <;> simp [h]
  rw [actRdOut, hr]

theorem actRdIn_held {s : State} {a : Nat} {v : Byte} (ha : Capacities.hasAddress s.caps.inCap a = true)
    (hv : Memory.read s.inMem a = some v) : actRdIn a s = .next (s.reply (.inOctet v)) := by
  simp [actRdIn, ha, hv]

theorem actRdIn_unwritten {s : State} {a : Nat} (ha : Capacities.hasAddress s.caps.inCap a = true)
    (hv : Memory.read s.inMem a = none) :
    actRdIn a s = .next ((s.reply (.inOctet (Config.freeOctet s.draws))).draw) := by
  simp [actRdIn, ha, hv]

/-- Settles O55: each read is a reply, with a free value where the value is unspecified. -/
theorem hostReadsComplete : Obligations.HostReadsComplete := by
  refine fun s => ⟨rfl, rfl, fun a v => actRdIn_held, fun hb => ?_, fun a ha => ?_, fun a ha hv => ?_⟩
  · exact ⟨_, _, _, _, actRdStatus_busy hb, actRdOutLen_busy hb⟩
  · exact ⟨_, _, actRdOut_outside ha⟩
  · exact ⟨_, _, actRdIn_unwritten ha hv⟩

/-- Under the invariant every cell of the result holds a value (R16). -/
theorem Inv.exists_read_outMem {s : State} (h : Inv s) {a : Nat} (ha : a < s.outLen) :
    ∃ v, Memory.read s.outMem a = some v := by
  obtain ⟨l, hl⟩ := Option.isSome_iff_exists.1 h.lengths.outHeld
  obtain ⟨hlen, hcells⟩ := (Memory.readRange_eq_some_iff _ _ _ _).1 hl
  have hv := hcells a (by omega)
  rw [Nat.zero_add] at hv
  exact ⟨_, hv⟩

/-- In `IDLE` no error is stored (R13; log entry 20). -/
theorem Inv.err_of_idle {s : State} (h : Inv s) (hs : s.st = .idle) : s.err = false := by
  by_contra he
  obtain ⟨hd, -⟩ := h.errOnlyAtDone (by simpa using he)
  rw [hs] at hd
  cases hd

/-- Settles O54: while not busy the reads return the stored values, which the invariant fixes in `IDLE` and has held at `DONE`. -/
theorem resultIsReadableAtDone : Obligations.ResultIsReadableAtDone := by
  refine fun s h => ⟨fun hs => ?idle, fun hs => ?done⟩
  case idle =>
    have hb : busy s = false := (busy_eq_false_iff s).2 (.inl hs)
    obtain ⟨-, -, hout⟩ := h.idleClear hs
    have hstatus : actRdStatus s = .next (s.reply (.status false false false)) := by
      rw [actRdStatus_notBusy hb, h.err_of_idle hs, doneView, hs]; rfl
    have hlen : actRdOutLen s = .next (s.reply (.outLen 0)) := by rw [actRdOutLen_notBusy hb, hout]
    exact ⟨hstatus, hlen⟩
  case done =>
    have hb : busy s = false := (busy_eq_false_iff s).2 (.inr hs)
    have hstatus : actRdStatus s = .next (s.reply (.status false true s.err)) := by
      rw [actRdStatus_notBusy hb, (doneView_iff s).2 hs]
    refine ⟨hstatus, actRdOutLen_notBusy hb, fun a ha => ?_⟩
    obtain ⟨v, hv⟩ := h.exists_read_outMem ha
    exact ⟨v, hv, actRdOut_result hs ha hv⟩

/-! ## Waiting, and the state after reset -/

/-- Settles O44: neither direction has a step in `IDLE` and `DONE`. -/
theorem codecWaitsWhileNotBusy : Obligations.CodecWaitsWhileNotBusy := by
  intro i s hb
  rcases exec_cases i s with ⟨-, h⟩ | ⟨-, h⟩ <;> rw [h]
  · rcases (busy_eq_false_iff s).1 hb with hs | hs <;> simp [encStep, hs]
  · rcases (busy_eq_false_iff s).1 hb with hs | hs <;> simp [decStep, hs]

/-- Settles O6: R22's table, row by row. -/
theorem resetStateIsAsListed : Obligations.ResetStateIsAsListed :=
  fun _ => ⟨rfl, rfl, rfl, rfl, rfl, rfl, rfl, rfl, rfl, rfl, fun a => ⟨Memory.read_nil a, Memory.read_nil a⟩⟩

@[simp] theorem Capacities.fits_zero (c : Option Nat) : Capacities.fits c 0 = true := by
  cases c <;> simp [Capacities.fits]

/-- The invariant of a codec that is not busy says nothing about an operation. -/
theorem inv_of_notBusy {s : State} (hb : busy s = false) (hc : s.caps.wellFormed = true) (hbuf : BuffersSound s)
    (hlen : LengthsSound s) (herr : s.err = true → s.st = .done ∧ s.outLen = 0)
    (hidle : s.st = .idle → s.rp = 0 ∧ s.dlen = 0 ∧ s.outLen = 0) : Inv s where
  capacities := hc
  buffers := hbuf
  lengths := hlen
  errOnlyAtDone := herr
  idleClear := hidle
  checkStart := fun hs => by rw [(busy_iff s).2 (.inl hs)] at hb; cases hb
  messageHeld := fun hbt => by rw [hbt] at hb; cases hb
  encodeUnderway := fun _ _ hs => by rw [(busy_iff s).2 (.inr hs)] at hb; cases hb
  decodeUnderway := fun _ _ hs => by rw [(busy_iff s).2 (.inr hs)] at hb; cases hb

/-- The state `RESET` leaves has the invariant, whatever stands beside the codec (R22, R124). -/
theorem inv_resetCodec {s : State} (hc : s.caps.wellFormed = true) : Inv s.resetCodec :=
  inv_of_notBusy rfl hc ⟨rfl, rfl, by simp, by simp⟩ ⟨by simp, by simp, by simp, by simp, rfl⟩ (by simp) (by simp)

/-- Settles O7: the state after reset is what `RESET` leaves of it. -/
theorem invariantHoldsAtReset : Obligations.InvariantHoldsAtReset :=
  fun c hc => inv_resetCodec (s := State.resetWith c) hc

end Sys2Proof.Machine
end

section
/-! SUPPORT. The state family (10_state.md): the invariant under the host's turns, the operation in flight with R18's table of steps,
and what an operation ends with (R21, R64). -/

namespace Sys2Proof.Machine

/-! ## The fields beside the codec -/

/-- `s` with other turns, replies and free values: all that a turn of the host can change of a busy codec's state. -/
def State.beside (s : State) (l : List Turn) (r : List Reply) (d : Nat) : State :=
  { s with agenda := l, replies := r, draws := d }

/-- The buffers' form speaks of the buffers and the capacities only. -/
theorem BuffersSound.congr {s t : State} (h : BuffersSound s) (hin : t.inMem = s.inMem) (hout : t.outMem = s.outMem)
    (hcaps : t.caps = s.caps) : BuffersSound t where
  inCanonical := hin ▸ h.inCanonical
  outCanonical := hout ▸ h.outCanonical
  inAddresses := by rw [hin, hcaps]; exact h.inAddresses
  outAddresses := by rw [hout, hcaps]; exact h.outAddresses

section Beside
variable {s : State} (l : List Turn) (r : List Reply) (d : Nat)

theorem BuffersSound.beside (h : BuffersSound s) : BuffersSound (s.beside l r d) := h.congr rfl rfl rfl

theorem LengthsSound.beside (h : LengthsSound s) : LengthsSound (s.beside l r d) :=
  ⟨h.inLenFits, h.rpFits, h.dlenFits, h.outLenFits, h.outHeld⟩

theorem EncodeUnderway.beside {m : List Byte} (h : EncodeUnderway s m) : EncodeUnderway (s.beside l r d) m :=
  ⟨h.rpWithin, h.rpOnGroup, h.dlenClear, h.outHolds⟩

theorem DecodeUnderway.beside {m : List Byte} (h : DecodeUnderway s m) : DecodeUnderway (s.beside l r d) m :=
  ⟨h.validated, h.dlenIsData, h.rpWithin, h.rpOnBlock, h.outHolds⟩

/-- The invariant speaks of the codec and its capacities only. -/
theorem Inv.beside (h : Inv s) : Inv (s.beside l r d) where
  capacities := h.capacities
  buffers := h.buffers.beside l r d
  lengths := h.lengths.beside l r d
  errOnlyAtDone := h.errOnlyAtDone
  idleClear := h.idleClear
  checkStart := h.checkStart
  messageHeld := h.messageHeld
  encodeUnderway := fun m hm hs ho => (h.encodeUnderway m hm hs ho).beside l r d
  decodeUnderway := fun m hm hs ho => (h.decodeUnderway m hm hs ho).beside l r d

end Beside

theorem not_busy_of_idle {s : State} (hs : s.st = .idle) : ¬ busy s = true := by simp [busy, hs]

theorem not_busy_of_done {s : State} (hs : s.st = .done) : ¬ busy s = true := by simp [busy, hs]

/-! ## What a step can do to the codec -/

/-- What a host action can do, by the gate: nothing to the codec, an effect while not busy, a reset (R24). -/
inductive HostEffect (s : State) : HostAction → State → Prop where
  | reply {a : HostAction} (l : List Turn) (r : List Reply) (d : Nat) : HostEffect s a (s.beside l r d)
  | wrCmd (hb : busy s = false) (c : CmdWord) : HostEffect s (.wrCmd c) (s.setCmd c)
  | wrInLen (hb : busy s = false) {n : Nat} (hn : Capacities.fits s.caps.inCap n = true) :
      HostEffect s (.wrInLen n) (s.setInLen n)
  | wrIn (hb : busy s = false) {a : Nat} (ha : Capacities.hasAddress s.caps.inCap a = true) (v : Byte) :
      HostEffect s (.wrIn a v) (s.storeIn a v)
  | start (hb : busy s = false) {m : List Byte} (hm : message s = some m) : HostEffect s .start s.begin
  | reset : HostEffect s .reset s.resetCodec

variable {s t : State} {m : List Byte}

theorem hostAction_effect {a : HostAction} (h : hostAction a s = .next t) : HostEffect s a t := by
  rcases hostAction_next h with rfl | ⟨hb, c, rfl, rfl⟩ | ⟨hb, n, rfl, hn, rfl⟩ | ⟨hb, b, v, rfl, ha, rfl⟩ |
    ⟨hb, rfl, hm, rfl⟩ | ⟨r, rfl⟩ | ⟨r, rfl⟩ | ⟨rfl, rfl⟩
  · exact .reply t.agenda t.replies t.draws
  · exact .wrCmd hb c
  · exact .wrInLen hb hn
  · exact .wrIn hb ha v
  · obtain ⟨m, hm⟩ := Option.isSome_iff_exists.1 hm
    exact .start hb hm
  · exact .reply s.agenda (r :: s.replies) s.draws
  · exact .reply s.agenda (r :: s.replies) (s.draws + 1)
  · exact .reset

/-- A turn of the host is a host action, or it leaves the codec alone (R63). -/
theorem hostTurn_effect {l : HostLine} (h : hostTurn l s = .next t) :
    (∃ a, l = .act a ∧ HostEffect s a t) ∨ ∃ l r d, t = s.beside l r d := by
  rcases hostTurn_next h with ⟨a, rfl, ha⟩ | ⟨ls, rfl⟩ | rfl | ⟨rfl, u, hu, rfl⟩
  · exact .inl ⟨a, rfl, hostAction_effect ha⟩
  · exact .inr ⟨_, s.replies, s.draws, rfl⟩
  · exact .inr ⟨t.agenda, t.replies, t.draws, rfl⟩
  · obtain ⟨l, hl⟩ := waitOn_eq u
    rw [hl]
    rcases actRdStatus_next hu with ⟨r, rfl⟩ | ⟨r, rfl⟩
    · exact .inr ⟨l, r :: s.replies, s.draws, rfl⟩
    · exact .inr ⟨l, r :: s.replies, s.draws + 1, rfl⟩

/-- A step of the machine: the codec's, or a host action's effect, or nothing of the codec (R9). -/
theorem step_effect (h : step s = .next t) :
    (∃ rest, exec (fetchCommand s) (s.setAgenda rest) = .next t) ∨
    (∃ a rest, s.agenda = .host (.act a) :: rest ∧ HostEffect (s.setAgenda rest) a t) ∨
    ∃ l r d, t = s.beside l r d := by
  rcases step_cases s with ⟨l, rest, hag, hl⟩ | ⟨rest, hr⟩
  · rcases hostTurn_effect (hl ▸ h) with ⟨a, rfl, ha⟩ | ⟨l, r, d, rfl⟩
    · exact .inr (.inl ⟨a, rest, hag, ha⟩)
    · exact .inr (.inr ⟨l, r, d, rfl⟩)
  · exact .inl ⟨rest, hr ▸ h⟩

/-- A step of a busy codec that is no `RESET` turn: the codec's, or nothing of the codec (R24, R129). -/
theorem step_effect_busy (hb : busy s = true) (hr : ¬ hostNext s .reset) (h : step s = .next t) :
    (∃ rest, exec (fetchCommand s) (s.setAgenda rest) = .next t) ∨ ∃ l r d, t = s.beside l r d := by
  have hgate : ∀ rest, busy (s.setAgenda rest) ≠ false := by simp [hb]
  rcases step_effect h with h | ⟨a, rest, hag, he⟩ | h
  · exact .inl h
  · cases he with
    | reply l r d => exact .inr ⟨l, r, d, rfl⟩
    | wrCmd hb' | wrInLen hb' | wrIn hb' | start hb' => exact absurd hb' (hgate rest)
    | reset => exact absurd ⟨rest, hag⟩ hr
  · exact .inr h

/-- A step that goes from `DONE` to `DONE` keeps the result (R112): the codec waits, `START` and `RESET` leave `DONE`. -/
theorem step_done_keeps_result (hs : s.st = .done) (ht : t.st = .done) (h : step s = .next t) :
    t.err = s.err ∧ t.outLen = s.outLen ∧ t.outMem = s.outMem := by
  rcases step_effect h with ⟨rest, h⟩ | ⟨a, rest, -, he⟩ | ⟨l, r, d, rfl⟩
  · have hb : busy (s.setAgenda rest) = false := (busy_eq_false_iff _).2 (.inr hs)
    rw [codecWaitsWhileNotBusy _ _ hb] at h
    cases h
    exact ⟨rfl, rfl, rfl⟩
  · cases he with
    | reply | wrCmd | wrInLen | wrIn => exact ⟨rfl, rfl, rfl⟩
    | start => rw [State.begin_st] at ht; split at ht <;> cases ht
    | reset => cases ht
  · exact ⟨rfl, rfl, rfl⟩

/-- A `RESET` turn leaves `IDLE` (R124). -/
theorem step_st_of_reset (hr : hostNext s .reset) (h : step s = .next t) : t.st = .idle := by
  obtain ⟨rest, hag⟩ := hr
  rw [step_host hag] at h
  cases h
  rfl

/-! ## The operation in flight -/

/-- How far the operation in flight on the message `m` has come (R12, R72, R97, R98). -/
inductive Phase (s : State) (m : List Byte) : Prop where
  | check (hs : s.st = .check) (hop : opIsDecode s = true) (hrp : s.rp = 0) (hd : s.dlen = 0) (ho : s.outLen = 0)
  | encode (hs : s.st = .xfer) (hop : opIsDecode s = false) (h : EncodeUnderway s m)
  | decode (hs : s.st = .xfer) (hop : opIsDecode s = true) (h : DecodeUnderway s m)

/-- A busy codec on the message `m`: what the invariant says of it, less the canonical form of the buffers, which `MessageReady` does not
ask for. -/
structure InFlight (s : State) (m : List Byte) : Prop where
  capacities : s.caps.wellFormed = true
  inLenFits : Capacities.fits s.caps.inCap s.inLen = true
  held : message s = some m
  errClear : s.err = false
  outHeld : (Memory.readRange s.outMem 0 s.outLen).isSome = true
  phase : Phase s m

theorem InFlight.isBusy (h : InFlight s m) : busy s = true := by
  rw [busy_iff]
  cases h.phase with
  | check hs => exact .inl hs
  | encode hs | decode hs => exact .inr hs

/-- A busy state with the invariant has an operation in flight. -/
theorem Inv.inFlight (h : Inv s) (hb : busy s = true) (hm : message s = some m) : InFlight s m where
  capacities := h.capacities
  inLenFits := h.lengths.inLenFits
  held := hm
  errClear := by
    by_contra he
    obtain ⟨hd, -⟩ := h.errOnlyAtDone (by simpa using he)
    exact not_busy_of_done hd hb
  outHeld := h.lengths.outHeld
  phase := by
    rcases (busy_iff s).1 hb with hs | hs
    · obtain ⟨hop, hrp, hd, ho⟩ := h.checkStart hs
      exact .check hs hop hrp hd ho
    · cases hop : opIsDecode s with
      | false => exact .encode hs hop (h.encodeUnderway m hm hs hop)
      | true => exact .decode hs hop (h.decodeUnderway m hm hs hop)

theorem InFlight.beside (h : InFlight s m) (l : List Turn) (r : List Reply) (d : Nat) :
    InFlight (s.beside l r d) m where
  capacities := h.capacities
  inLenFits := h.inLenFits
  held := h.held
  errClear := h.errClear
  outHeld := h.outHeld
  phase := by
    cases h.phase with
    | check hs hop hrp hd ho => exact .check hs hop hrp hd ho
    | encode hs hop h => exact .encode hs hop (h.beside l r d)
    | decode hs hop h => exact .decode hs hop (h.beside l r d)

/-- `START` puts an operation in flight (R24). -/
theorem inFlight_begin (hw : s.caps.wellFormed = true) (hf : Capacities.fits s.caps.inCap s.inLen = true)
    (hm : message s = some m) : InFlight s.begin m where
  capacities := hw
  inLenFits := hf
  held := hm
  errClear := rfl
  outHeld := rfl
  phase := by
    cases hop : opIsDecode s with
    | false => exact .encode (by simp [hop]) hop ⟨Nat.zero_le _, .inl rfl, rfl, by simp⟩
    | true => exact .check (by simp [hop]) hop rfl rfl rfl

/-! ## How much of `OUT` is taken -/

/-- A block yields at most 5 bytes (R91). -/
theorem blockBytes_le {d k : Nat} (h : blockBytes d = some k) : k ≤ 5 := by
  unfold blockBytes nBytes at h
  split at h
  · cases h; omega
  · split at h
    · cases h
    · split at h <;> cases h <;> omega

theorem decBlocks_length_le {α : Alphabet} {bs : List (List Byte)} {y : List Byte} (h : decBlocks α bs = some y) :
    y.length ≤ 5 * bs.length := by
  induction bs generalizing y with
  | nil => cases h; simp
  | cons b bs ih =>
    simp only [decBlocks] at h
    split at h
    · next u v hu hv =>
      cases h
      have hb := blockBytes_le (decBlock_length hu)
      have hbs := ih hv
      simp only [List.length_append, List.length_cons]
      omega
    · cases h

/-- The text of `RP` bytes (R72). -/
theorem EncodeUnderway.outLen_eq (h : EncodeUnderway s m) (hm : message s = some m) :
    s.outLen = 8 * ((s.rp + 4) / 5) := by
  have hlen := Memory.readRange_length h.outHolds
  have hrp := h.rpWithin
  rw [encodeMessage_length, cuts_length, ceilDiv_five, List.length_take, message_length hm] at hlen
  rw [← hlen, min_eq_left hrp]

/-- The bytes of `RP` characters are at most 5 for each block begun (R98). -/
theorem DecodeUnderway.outLen_le (h : DecodeUnderway s m) (hout : (Memory.readRange s.outMem 0 s.outLen).isSome = true) :
    s.outLen ≤ 5 * ((s.rp + 7) / 8) := by
  obtain ⟨y, hy⟩ := Option.isSome_iff_exists.1 hout
  have hle := decBlocks_length_le (h.outHolds ▸ hy)
  have hrp := h.rpWithin
  rw [cuts_length, ceilDiv_eight, List.length_take, dataPortion_length, ← h.dlenIsData, min_eq_left hrp,
    Memory.readRange_length hy] at hle
  exact hle

theorem DecodeUnderway.dlen_le (h : DecodeUnderway s m) (hm : message s = some m) : s.dlen ≤ s.inLen := by
  rw [h.dlenIsData, ← message_length hm]
  exact dataLength_le m

theorem DecodeUnderway.dlen_mod (h : DecodeUnderway s m) :
    s.dlen % 8 = 0 ∨ s.dlen % 8 = 2 ∨ s.dlen % 8 = 4 ∨ s.dlen % 8 = 5 ∨ s.dlen % 8 = 7 := by
  rw [h.dlenIsData]
  exact validText_dataLength h.validated

/-- The bytes of `r` characters, at most 5 for each block begun, fit the buffer R7 asks for beside `r` octets of `IN` (R33). -/
theorem five_mul_blocks_le (r : Nat) : 5 * ((r + 7) / 8) ≤ 8 * ((r + 4) / 5) := by
  rcases Nat.eq_zero_or_pos r with rfl | hpos
  · decide
  · rcases Nat.lt_or_ge r 5 with h | h <;> omega

/-- The lengths of an operation in flight stay within the buffers (R14, R33). -/
theorem InFlight.lengths (h : InFlight s m) : LengthsSound s := by
  have hzero : ∀ {c : Option Nat} {n : Nat}, n = 0 → Capacities.fits c n = true := fun hn => by simp [hn]
  have within : ∀ {n : Nat}, n ≤ s.inLen → Capacities.fits s.caps.inCap n = true := Capacities.fits_mono h.inLenFits
  cases h.phase with
  | check hs hop hrp hd ho => exact ⟨h.inLenFits, hzero hrp, hzero hd, hzero ho, h.outHeld⟩
  | encode hs hop he =>
    have hrp := he.rpWithin
    have hout := he.outLen_eq h.held
    exact ⟨h.inLenFits, within hrp, hzero he.dlenClear, Capacities.out_fits h.capacities h.inLenFits (by omega), h.outHeld⟩
  | decode hs hop hd =>
    have hrp := hd.rpWithin
    have hdlen := hd.dlen_le h.held
    have hout := (hd.outLen_le h.outHeld).trans (five_mul_blocks_le s.rp)
    exact ⟨h.inLenFits, within (by omega), within hdlen, Capacities.out_fits h.capacities h.inLenFits (by omega), h.outHeld⟩

/-- An operation in flight on canonical buffers has the invariant. -/
theorem InFlight.inv (h : InFlight s m) (hbuf : BuffersSound s) : Inv s where
  capacities := h.capacities
  buffers := hbuf
  lengths := h.lengths
  errOnlyAtDone := fun he => by cases h.errClear.symm.trans he
  idleClear := fun hs => absurd h.isBusy (not_busy_of_idle hs)
  checkStart := fun hs => by
    cases h.phase with
    | check _ hop hrp hd ho => exact ⟨hop, hrp, hd, ho⟩
    | encode hs' | decode hs' => cases hs.symm.trans hs'
  messageHeld := fun _ => by rw [h.held]; rfl
  encodeUnderway := fun x hx hs hop => by
    cases h.held.symm.trans hx
    cases h.phase with
    | check hs' => cases hs.symm.trans hs'
    | encode _ _ he => exact he
    | decode _ hop' => cases hop.symm.trans hop'
  decodeUnderway := fun x hx hs hop => by
    cases h.held.symm.trans hx
    cases h.phase with
    | check hs' => cases hs.symm.trans hs'
    | encode _ hop' => cases hop.symm.trans hop'
    | decode _ _ hd => exact hd

/-! ## R18's table of steps -/

/-- One codec step of an operation in flight on `m`, one constructor for each outcome of a row of R18's table. -/
inductive CodecStep (s : State) (m : List Byte) : State → Prop where
  /-- `ENC.GROUP` (R72). -/
  | encGroup (hs : s.st = .xfer) (hop : opIsDecode s = false) (h : EncodeUnderway s m) (hlt : s.rp < s.inLen) {n : Nat}
      (hn : n = min 5 (s.inLen - s.rp))
      (hf : Capacities.fits s.caps.outCap (s.outLen + 8) = true) :
      CodecStep s m (s.produce (encGroup (alphabetOf s.cmd) ((m.drop s.rp).take n)) n)
  /-- `ENC.END` (R73). -/
  | encEnd (hs : s.st = .xfer) (hop : opIsDecode s = false) (h : EncodeUnderway s m) (he : s.rp = s.inLen) :
      CodecStep s m s.finish
  /-- `DEC.CHECK` on an accepted text (R97). -/
  | decAccept (hs : s.st = .check) (hop : opIsDecode s = true) (hrp : s.rp = 0) (ho : s.outLen = 0)
      (hv : validText (alphabetOf s.cmd) m = true) : CodecStep s m (s.acceptText (dataLength m))
  /-- `DEC.CHECK` on a rejected text (R97, R108). -/
  | decReject (hs : s.st = .check) (hop : opIsDecode s = true) (hv : validText (alphabetOf s.cmd) m = false) :
      CodecStep s m s.invalidInput
  /-- `DEC.BLOCK` (R98). -/
  | decBlock (hs : s.st = .xfer) (hop : opIsDecode s = true) (h : DecodeUnderway s m) (hlt : s.rp < s.dlen) {n : Nat}
      (hn : n = min 8 (s.dlen - s.rp)) {bytes : List Byte}
      (hb : Machine.decBlock (alphabetOf s.cmd) (((dataPortion m).drop s.rp).take n) = some bytes)
      (hf : Capacities.fits s.caps.outCap (s.outLen + bytes.length) = true) : CodecStep s m (s.produce bytes n)
  /-- `DEC.END` (R99). -/
  | decEnd (hs : s.st = .xfer) (hop : opIsDecode s = true) (h : DecodeUnderway s m) (he : s.rp = s.dlen) :
      CodecStep s m s.finish

theorem exec_of_encode (hop : opIsDecode s = false) : exec (fetchCommand s) s = encStep (alphabetOf s.cmd) s := by
  rw [exec_encode ((fetchCommand_of_op s).1 hop), alphabetOf_cmd]

theorem exec_of_decode (hop : opIsDecode s = true) : exec (fetchCommand s) s = decStep (alphabetOf s.cmd) s := by
  rw [exec_decode ((fetchCommand_of_op s).2 hop), alphabetOf_cmd]

theorem memAppend_eq {bs : List Byte} (h : Capacities.fits s.caps.outCap (s.outLen + bs.length) = true) (d : Nat) :
    memAppend bs d s = .next (s.produce bs d) := if_pos h

section Rows
variable {α : Alphabet}

theorem encStep_end (hs : s.st = .xfer) (h : s.rp = s.inLen) : encStep α s = .next s.finish := by
  simp [encStep, hs, h]

theorem decStep_end (hs : s.st = .xfer) (h : s.rp = s.dlen) : decStep α s = .next s.finish := by
  simp [decStep, hs, h]

theorem decCheckStep_of_message (hm : message s = some m) :
    decCheckStep α s = .next (if validText α m then s.acceptText (dataLength m) else s.invalidInput) := by
  rw [decCheckStep, memRead_eq (Nat.zero_add _).le hm]
  split <;> rfl

theorem encGroupStep_of_message (hm : message s = some m) (hlt : s.rp < s.inLen) {n : Nat}
    (hn : n = min 5 (s.inLen - s.rp)) :
    encGroupStep α s = memAppend (encGroup α ((m.drop s.rp).take n)) n s := by
  rw [encGroupStep, ← hn, memRead_eq (by omega) (message_part hm (by omega))]

end Rows

/-- A part of the data portion is that part of the text (R84). -/
theorem dataPortion_part {a n : Nat} (h : a + n ≤ dataLength m) :
    ((dataPortion m).drop a).take n = (m.drop a).take n := by
  rw [dataPortion, List.drop_take, List.take_take, min_eq_left (by omega)]

/-- A part of an accepted text's data portion is all symbols (R85). -/
theorem allSymbols_part {α : Alphabet} (h : validText α m = true) (a n : Nat) :
    allSymbols α (((dataPortion m).drop a).take n) = true := by
  rw [validText, Bool.and_eq_true] at h
  obtain ⟨hsym, -⟩ := h
  rw [allSymbols, List.all_eq_true] at hsym ⊢
  exact fun c hc => hsym c (List.mem_of_mem_drop (List.mem_of_mem_take hc))

/-- Every block of an accepted text is in the domain of `DecBlock` (R90, R98). -/
theorem DecodeUnderway.exists_decBlock (h : DecodeUnderway s m) (hlt : s.rp < s.dlen) {n : Nat}
    (hn : n = min 8 (s.dlen - s.rp)) :
    ∃ bytes, decBlock (alphabetOf s.cmd) (((dataPortion m).drop s.rp).take n) = some bytes ∧ bytes.length ≤ 5 := by
  have hlen : (((dataPortion m).drop s.rp).take n).length = n := by
    rw [List.length_take, List.length_drop, dataPortion_length, ← h.dlenIsData]
    omega
  have hblock : n = 8 ∨ n = 2 ∨ n = 4 ∨ n = 5 ∨ n = 7 := by
    have hmod := h.dlen_mod
    have hrp := h.rpOnBlock
    omega
  have hk : ∃ k, blockBytes n = some k := by rcases hblock with rfl | rfl | rfl | rfl | rfl <;> exact ⟨_, rfl⟩
  obtain ⟨k, hk⟩ := hk
  obtain ⟨bytes, hb, hbl⟩ := decBlock_eq_some (allSymbols_part h.validated s.rp n) (hlen.symm ▸ hk)
  exact ⟨bytes, hb, hbl ▸ blockBytes_le hk⟩

/-- An operation in flight is never stuck: its next codec step is one of R18's table. -/
theorem InFlight.exists_codecStep (h : InFlight s m) : ∃ t, exec (fetchCommand s) s = .next t ∧ CodecStep s m t := by
  cases h.phase with
  | check hs hop hrp hd ho =>
    rw [exec_of_decode hop, decStep_check hs, decCheckStep_of_message h.held]
    cases hv : validText (alphabetOf s.cmd) m with
    | true => exact ⟨_, rfl, .decAccept hs hop hrp ho hv⟩
    | false => exact ⟨_, rfl, .decReject hs hop hv⟩
  | encode hs hop he =>
    rw [exec_of_encode hop]
    rcases he.rpWithin.lt_or_eq with hlt | heq
    · have hf : Capacities.fits s.caps.outCap (s.outLen + 8) = true := by
        have hout := he.outLen_eq h.held
        have hrp := he.rpOnGroup
        exact Capacities.out_fits h.capacities h.inLenFits (by omega)
      rw [encStep_group hs hlt, encGroupStep_of_message h.held hlt rfl]
      exact ⟨_, memAppend_eq (by rwa [encGroup_length]) _, .encGroup hs hop he hlt rfl hf⟩
    · exact ⟨_, encStep_end hs heq, .encEnd hs hop he heq⟩
  | decode hs hop hd =>
    rw [exec_of_decode hop]
    rcases hd.rpWithin.lt_or_eq with hlt | heq
    · obtain ⟨bytes, hb, hk⟩ := hd.exists_decBlock hlt rfl
      have hdlen := hd.dlen_le h.held
      have hread := message_part h.held (a := s.rp) (n := min 8 (s.dlen - s.rp)) (by omega)
      rw [← dataPortion_part (by rw [← hd.dlenIsData]; omega)] at hread
      have hf : Capacities.fits s.caps.outCap (s.outLen + bytes.length) = true := by
        have hout := hd.outLen_le h.outHeld
        have hrp := hd.rpOnBlock
        have hblocks := five_mul_blocks_le (s.rp + 1)
        have hfits : Capacities.fits s.caps.inCap (s.rp + 1) = true := Capacities.fits_mono h.inLenFits (by omega)
        exact Capacities.out_fits h.capacities hfits (by omega)
      rw [decStep_block hs hlt, decBlockStep_append (by omega) hread hb]
      exact ⟨_, memAppend_eq hf _, .decBlock hs hop hd hlt rfl hb hf⟩
    · exact ⟨_, decStep_end hs heq, .decEnd hs hop hd heq⟩

/-- Whatever the command in CMD answers on an operation in flight is a step of R18's table. -/
theorem InFlight.codecStep (h : InFlight s m) (ht : exec (fetchCommand s) s = .next t) : CodecStep s m t := by
  obtain ⟨u, hu, hstep⟩ := h.exists_codecStep
  cases hu.symm.trans ht
  exact hstep

/-- Each step of R18's table takes one from the steps that are left (R134). -/
theorem CodecStep.stepsLeft_eq (hm : message s = some m) (h : CodecStep s m t) : stepsLeft s = stepsLeft t + 1 := by
  cases h with
  | encGroup hs hop h hlt hn =>
    have hop' : ∀ bs d, opIsDecode (s.produce bs d) = false := fun _ _ => hop
    simp only [stepsLeft, hs, hop, hop', State.produce_st, State.produce_rp, State.produce_inLen, ceilDiv_five]
    simp only [Bool.false_eq_true, if_false]
    omega
  | encEnd hs hop h he => simp [stepsLeft, hs, hop, he, ceilDiv_five]
  | decAccept hs hop hrp ho hv =>
    have hop' : opIsDecode (s.acceptText (dataLength m)) = true := hop
    simp [stepsLeft, hs, hop', hm, hv, hrp]
  | decReject hs hop hv => simp [stepsLeft, hs, hm, hv]
  | decBlock hs hop h hlt hn =>
    have hop' : ∀ bs d, opIsDecode (s.produce bs d) = true := fun _ _ => hop
    simp only [stepsLeft, hs, hop, hop', State.produce_st, State.produce_rp, State.produce_dlen, ceilDiv_eight]
    simp only [if_true]
    omega
  | decEnd hs hop h he => simp [stepsLeft, hs, hop, he, ceilDiv_eight]

/-- Settles O9: R18's table has a step for every phase of an operation, and each takes one from the measure. -/
theorem busyCodecAlwaysSteps : Obligations.BusyCodecAlwaysSteps := by
  intro s h hb
  obtain ⟨m, hm⟩ := Option.isSome_iff_exists.1 (h.messageHeld hb)
  obtain ⟨t, ht, hstep⟩ := (h.inFlight hb hm).exists_codecStep
  exact ⟨t, ht, hstep.stepsLeft_eq hm⟩

/-! ## What the steps lead to -/

/-- One more group of an encode (R72). -/
theorem EncodeUnderway.produce (h : EncodeUnderway s m) (hm : message s = some m) (hlt : s.rp < s.inLen) {n : Nat}
    (hn : n = min 5 (s.inLen - s.rp)) :
    EncodeUnderway (s.produce (encGroup (alphabetOf s.cmd) ((m.drop s.rp).take n)) n) m := by
  have hrp := h.rpOnGroup
  have hlen := message_length hm
  refine ⟨by simp; omega, by simp; omega, h.dlenClear, ?_⟩
  have htext : encodeMessage (alphabetOf s.cmd) (m.take (s.rp + n)) =
      encodeMessage (alphabetOf s.cmd) (m.take s.rp) ++ encGroup (alphabetOf s.cmd) ((m.drop s.rp).take n) := by
    rw [List.take_add]
    refine encodeMessage_append_group _ _ _ ?_ ?_ ?_
    · rw [List.length_take]; omega
    · refine List.ne_nil_of_length_pos ?_
      rw [List.length_take, List.length_drop]; omega
    · rw [List.length_take]; omega
  simp only [State.produce_outMem, State.produce_outLen, State.produce_cmd, State.produce_rp, htext]
  exact Memory.readRange_append_written _ h.outHolds

/-- One more block of a decode (R98). -/
theorem DecodeUnderway.produce (h : DecodeUnderway s m) (hout : (Memory.readRange s.outMem 0 s.outLen).isSome = true)
    (hlt : s.rp < s.dlen) {n : Nat} (hn : n = min 8 (s.dlen - s.rp)) {bytes : List Byte}
    (hb : decBlock (alphabetOf s.cmd) (((dataPortion m).drop s.rp).take n) = some bytes) :
    DecodeUnderway (s.produce bytes n) m := by
  have hrp := h.rpOnBlock
  have hlen : (dataPortion m).length = s.dlen := by rw [dataPortion_length, h.dlenIsData]
  refine ⟨h.validated, h.dlenIsData, by simp; omega, by simp; omega, ?_⟩
  obtain ⟨y, hy⟩ := Option.isSome_iff_exists.1 hout
  have hbytes : decBlocks (alphabetOf s.cmd) (cuts 8 ((dataPortion m).take (s.rp + n))) = some (y ++ bytes) := by
    rw [List.take_add]
    refine decBlocks_append_block _ ?_ ?_ ?_ (h.outHolds ▸ hy) hb
    · rw [List.length_take]; omega
    · refine List.ne_nil_of_length_pos ?_
      rw [List.length_take, List.length_drop]; omega
    · rw [List.length_take]; omega
  simp only [State.produce_outMem, State.produce_outLen, State.produce_cmd, State.produce_rp, hbytes]
  exact Memory.readRange_append_written _ hy

/-- An operation in flight goes on, or it has ended with the command's result on its message (R21, R64). -/
def Progress (s : State) (m : List Byte) (t : State) : Prop :=
  t.cmd = s.cmd ∧ (InFlight t m ∨ t.st = .done ∧ HoldsResult t (commandResult (fetchCommand s) m))

/-- The result an encode has at its end (R73, R74, R75). -/
theorem EncodeUnderway.holdsResult (h : EncodeUnderway s m) (hm : message s = some m) (herr : s.err = false)
    (hop : opIsDecode s = false) (he : s.rp = s.inLen) : HoldsResult s.finish (commandResult (fetchCommand s) m) := by
  have hlen := message_length hm
  have hout := h.outHolds
  rw [he, ← hlen, List.take_length] at hout
  rw [commandResult_encode ((fetchCommand_of_op s).1 hop), alphabetOf_cmd, hlen, ← he]
  exact ⟨herr, h.outLen_eq hm, hout⟩

/-- The result an accepted decode has at its end (R99, R100, R101). -/
theorem DecodeUnderway.holdsResult (h : DecodeUnderway s m) (hout : (Memory.readRange s.outMem 0 s.outLen).isSome = true)
    (herr : s.err = false) (hop : opIsDecode s = true) (he : s.rp = s.dlen) :
    HoldsResult s.finish (commandResult (fetchCommand s) m) := by
  obtain ⟨y, hy⟩ := Option.isSome_iff_exists.1 hout
  have hall : decodeMessage (alphabetOf s.cmd) m = some y := by
    have hblocks := h.outHolds ▸ hy
    rw [he, h.dlenIsData, ← dataPortion_length, List.take_length] at hblocks
    rw [decodeMessage, if_pos h.validated, hblocks]
  rw [commandResult_accepted ((fetchCommand_of_op s).2 hop) (alphabetOf_cmd s ▸ hall)]
  exact ⟨herr, (Memory.readRange_length hy).symm, hy⟩

/-- Each step of R18's table goes on with the operation or ends it with its result. -/
theorem CodecStep.progress (hf : InFlight s m) (h : CodecStep s m t) : Progress s m t := by
  cases h with
  | encGroup hs hop h hlt hn =>
    have hu := h.produce hf.held hlt hn
    exact ⟨rfl, .inl ⟨hf.capacities, hf.inLenFits, hf.held, hf.errClear, by rw [hu.outHolds]; rfl, .encode hs hop hu⟩⟩
  | encEnd hs hop h he => exact ⟨rfl, .inr ⟨rfl, h.holdsResult hf.held hf.errClear hop he⟩⟩
  | decAccept hs hop hrp ho hv =>
    have hu : DecodeUnderway (s.acceptText (dataLength m)) m :=
      ⟨hv, rfl, by simp [hrp], by simp [hrp], by simp [hrp, ho, decBlocks]⟩
    exact ⟨rfl, .inl ⟨hf.capacities, hf.inLenFits, hf.held, hf.errClear, hf.outHeld, .decode rfl hop hu⟩⟩
  | decReject hs hop hv =>
    have hnone : decodeMessage (alphabetOfInstr (fetchCommand s)) m = none := by simp [decodeMessage, alphabetOf_cmd, hv]
    refine ⟨rfl, .inr ⟨rfl, ?_⟩⟩
    rw [commandResult_rejected ((fetchCommand_of_op s).2 hop) hnone]
    exact ⟨rfl, rfl, rfl⟩
  | @decBlock hs hop h hlt n hn bytes hb =>
    have hu := h.produce hf.outHeld hlt hn hb
    obtain ⟨y, hy⟩ := Option.isSome_iff_exists.1 hf.outHeld
    have hout := Memory.readRange_append_written bytes hy
    exact ⟨rfl, .inl ⟨hf.capacities, hf.inLenFits, hf.held, hf.errClear, Option.isSome_iff_exists.2 ⟨_, hout⟩,
      .decode hs hop hu⟩⟩
  | decEnd hs hop h he => exact ⟨rfl, .inr ⟨rfl, h.holdsResult hf.outHeld hf.errClear hop he⟩⟩

/-- A step of either agent, no `RESET` turn, goes on with the operation in flight or ends it with its result (R18, R21). -/
theorem InFlight.step_progress (h : InFlight s m) (hr : ¬ hostNext s .reset) (ht : step s = .next t) : Progress s m t := by
  rcases step_effect_busy h.isBusy hr ht with ⟨rest, hx⟩ | ⟨l, r, d, rfl⟩
  · have h' : InFlight (s.setAgenda rest) m := h.beside rest s.replies s.draws
    change Progress (s.setAgenda rest) m t
    exact (h'.codecStep hx).progress h'
  · exact ⟨rfl, .inl (h.beside l r d)⟩

/-! ## The invariant under every step -/

/-- A write to `OUT` within its capacity keeps the buffers' form (R8, R25). -/
theorem BuffersSound.produce (h : BuffersSound s) {bs : List Byte}
    (hf : Capacities.fits s.caps.outCap (s.outLen + bs.length) = true) (d : Nat) : BuffersSound (s.produce bs d) where
  inCanonical := h.inCanonical
  outCanonical := Memory.writeRange_wf h.outCanonical _ _
  inAddresses := h.inAddresses
  outAddresses := fun c hc => by
    rcases Memory.mem_writeRange hc with ⟨-, hlt⟩ | hc
    · exact Capacities.hasAddress_of_fits hf hlt
    · exact h.outAddresses c hc

/-- A write to an existing cell of `IN` keeps the buffers' form (R24, R25). -/
theorem BuffersSound.storeIn (h : BuffersSound s) {a : Nat} (ha : Capacities.hasAddress s.caps.inCap a = true) (v : Byte) :
    BuffersSound (s.storeIn a v) where
  inCanonical := Memory.write_wf h.inCanonical a v
  outCanonical := h.outCanonical
  inAddresses := fun c hc => by
    rcases Memory.mem_write hc with rfl | hc
    · exact ha
    · exact h.inAddresses c hc
  outAddresses := h.outAddresses

theorem CodecStep.buffersSound (hbuf : BuffersSound s) (h : CodecStep s m t) : BuffersSound t := by
  cases h with
  | encGroup _ _ _ _ _ hf => exact hbuf.produce (by rwa [encGroup_length]) _
  | decBlock _ _ _ _ _ _ hf => exact hbuf.produce hf _
  | encEnd | decAccept | decReject | decEnd =>
    exact hbuf.congr rfl rfl rfl

section Done
variable (h : InFlight s m) (hbuf : BuffersSound s)
include h hbuf

theorem InFlight.inv_finish : Inv s.finish := by
  have hl := h.lengths
  exact inv_of_notBusy rfl h.capacities (hbuf.congr rfl rfl rfl)
    ⟨hl.inLenFits, hl.rpFits, hl.dlenFits, hl.outLenFits, hl.outHeld⟩
    (fun he => by cases h.errClear.symm.trans he) nofun

theorem InFlight.inv_invalidInput : Inv s.invalidInput := by
  have hl := h.lengths
  exact inv_of_notBusy rfl h.capacities (hbuf.congr rfl rfl rfl)
    ⟨hl.inLenFits, hl.rpFits, hl.dlenFits, Capacities.fits_zero _, rfl⟩ (fun _ => ⟨rfl, rfl⟩) nofun

/-- Each step of R18's table keeps the invariant: the operation stays in flight, or it stands at `DONE`. -/
theorem CodecStep.inv (hstep : CodecStep s m t) : Inv t := by
  have hbt := hstep.buffersSound hbuf
  obtain ⟨-, hgo | ⟨hd, -⟩⟩ := hstep.progress h
  · exact hgo.inv hbt
  · cases hstep with
    | encEnd | decEnd => exact h.inv_finish hbuf
    | decReject => exact h.inv_invalidInput hbuf
    | encGroup hs | decBlock hs => cases hs.symm.trans hd
    | decAccept => cases hd

end Done

/-- One codec step keeps the invariant: it is a step of R18's table, or the codec waits. -/
theorem Inv.codecTurn (h : Inv s) (ht : exec (fetchCommand s) s = .next t) : Inv t := by
  cases hb : busy s with
  | false =>
    rw [codecWaitsWhileNotBusy _ s hb] at ht
    cases ht
    exact h
  | true =>
    obtain ⟨m, hm⟩ := Option.isSome_iff_exists.1 (h.messageHeld hb)
    have hf := h.inFlight hb hm
    exact CodecStep.inv hf h.buffers (hf.codecStep ht)

/-- Every effect of a host action keeps the invariant (R24): the writes come while no operation is in flight. -/
theorem HostEffect.inv {a : HostAction} (h : Inv s) (he : HostEffect s a t) : Inv t := by
  have hbuf := h.buffers
  have hlen := h.lengths
  cases he with
  | reply l r d => exact h.beside l r d
  | wrCmd hb =>
    exact inv_of_notBusy hb h.capacities (hbuf.congr rfl rfl rfl)
      ⟨hlen.inLenFits, hlen.rpFits, hlen.dlenFits, hlen.outLenFits, hlen.outHeld⟩ h.errOnlyAtDone h.idleClear
  | wrInLen hb hn =>
    exact inv_of_notBusy hb h.capacities (hbuf.congr rfl rfl rfl)
      ⟨hn, hlen.rpFits, hlen.dlenFits, hlen.outLenFits, hlen.outHeld⟩ h.errOnlyAtDone h.idleClear
  | wrIn hb ha v =>
    exact inv_of_notBusy hb h.capacities (hbuf.storeIn ha v)
      ⟨hlen.inLenFits, hlen.rpFits, hlen.dlenFits, hlen.outLenFits, hlen.outHeld⟩ h.errOnlyAtDone h.idleClear
  | start hb hm =>
    exact (inFlight_begin h.capacities hlen.inLenFits hm).inv
      (hbuf.congr rfl rfl rfl)
  | reset => exact inv_resetCodec h.capacities

/-- Settles O8: a step is the codec's (R18's table), a host action's, or nothing of the codec; each keeps the invariant. -/
theorem everyStepKeepsInvariant : Obligations.EveryStepKeepsInvariant := by
  intro s t h ht
  have turn : ∀ rest, Inv (s.setAgenda rest) := fun rest => h.beside rest s.replies s.draws
  rcases step_effect ht with ⟨rest, hx⟩ | ⟨a, rest, -, he⟩ | ⟨l, r, d, rfl⟩
  · exact (turn rest).codecTurn hx
  · exact he.inv (turn rest)
  · exact h.beside l r d

/-! ## A whole operation -/

theorem HoldsResult.congr {r : Bool × Nat × List Byte} (h : HoldsResult s r)
    (hk : t.err = s.err ∧ t.outLen = s.outLen ∧ t.outMem = s.outMem) : HoldsResult t r := by
  obtain ⟨herr, hlen, hmem⟩ := hk
  rw [HoldsResult, herr, hlen, hmem]
  exact h

/-- The `START` turn of a ready state puts the operation in flight (R24). -/
theorem MessageReady.start (h : MessageReady s m) (hn : hostNext s .start) :
    ∃ u, runFor 1 s = .next u ∧ InFlight u m ∧ u.cmd = s.cmd := by
  obtain ⟨rest, hag⟩ := hn
  have hstep : step s = .next (s.setAgenda rest).begin := by
    rw [step_host hag]
    exact actStart_of_message (s := s.setAgenda rest) h.notBusy h.held
  exact ⟨_, runFor_succ hstep, inFlight_begin (s := s.setAgenda rest) h.capacities h.inLenFits h.held, rfl⟩

section Run
variable {k : Nat} (hready : MessageReady s m) (hnext : hostNext s .start)
  (hbusy : ∀ j, 1 ≤ j → j ≤ k → ∃ u, runFor j s = .next u ∧ busy u = true)
include hready hnext hbusy

/-- As long as the codec is busy after `START`, the operation is in flight on its message. -/
theorem inFlight_of_busy_run {j : Nat} (h1 : 1 ≤ j) (hj : j ≤ k) :
    ∃ u, runFor j s = .next u ∧ InFlight u m ∧ u.cmd = s.cmd := by
  induction j, h1 using Nat.le_induction with
  | base => exact hready.start hnext
  | succ j h1 ih =>
    obtain ⟨u, hu, hf, hcmd⟩ := ih (by omega)
    obtain ⟨v, hv, hb⟩ := hbusy (j + 1) (by omega) hj
    obtain ⟨u', hu', hstep⟩ := runFor_last hv
    cases hu.symm.trans hu'
    have hr : ¬ hostNext u .reset := fun hr =>
      not_busy_of_idle (step_st_of_reset hr hstep) hb
    obtain ⟨hc, hgo | ⟨hd, -⟩⟩ := hf.step_progress hr hstep
    · exact ⟨v, hv, hgo, hc.trans hcmd⟩
    · exact absurd hb (not_busy_of_done hd)

/-- From the first state at `DONE` on, the result stands there (R21, R64, R112). -/
theorem holdsResult_of_done_run {n : Nat} (hdone : ∀ j, k < j → j ≤ n → ∃ u, runFor j s = .next u ∧ u.st = .done)
    {j : Nat} (h1 : k + 1 ≤ j) (hj : j ≤ n) :
    ∃ u, runFor j s = .next u ∧ HoldsResult u (commandResult (fetchCommand s) m) := by
  induction j, h1 using Nat.le_induction with
  | base =>
    obtain ⟨v, hv, hd⟩ := hdone (k + 1) (by omega) hj
    rcases Nat.eq_zero_or_pos k with rfl | hk
    · obtain ⟨u, hu, hf, -⟩ := hready.start hnext
      cases hu.symm.trans hv
      exact absurd hf.isBusy (not_busy_of_done hd)
    · obtain ⟨u, hu, hf, hcmd⟩ := inFlight_of_busy_run hready hnext hbusy hk le_rfl
      obtain ⟨u', hu', hstep⟩ := runFor_last hv
      cases hu.symm.trans hu'
      have hr : ¬ hostNext u .reset := fun hr => by cases hd.symm.trans (step_st_of_reset hr hstep)
      obtain ⟨-, hgo | ⟨-, hres⟩⟩ := hf.step_progress hr hstep
      · exact absurd hgo.isBusy (not_busy_of_done hd)
      · rw [fetchCommand, hcmd] at hres
        exact ⟨v, hv, hres⟩
  | succ j h1 ih =>
    obtain ⟨u, hu, hres⟩ := ih (by omega)
    obtain ⟨v, hv, hd⟩ := hdone (j + 1) (by omega) hj
    obtain ⟨u', hu', hstep⟩ := runFor_last hv
    cases hu.symm.trans hu'
    obtain ⟨w, hw, hdu⟩ := hdone j (by omega) (by omega)
    cases hu.symm.trans hw
    exact ⟨v, hv, hres.congr (step_done_keeps_result hdu hd hstep)⟩

end Run

/-- A whole operation, whatever the host's turns between and after its steps, ends with its command's result on its message (R21). -/
theorem OperationRun.holdsResult (h : OperationRun s m t) : HoldsResult t (commandResult (fetchCommand s) m) := by
  obtain ⟨k, n, hk, hbusy, hdone, ht⟩ := h.ends
  obtain ⟨u, hu, hres⟩ := holdsResult_of_done_run h.ready h.next hbusy hdone hk le_rfl
  cases hu.symm.trans ht
  exact hres

/-- Settles O46: every step makes progress to the command's result, which whole operations therefore hold alike. -/
theorem resultDependsOnMessageOnly : Obligations.ResultDependsOnMessageOnly := by
  refine ⟨fun s t m h hb hm hr ht => ?step, fun s s' t t' m hrun hrun' hcmd => ?run⟩
  case step =>
    obtain ⟨-, hgo | ⟨hd, hres⟩⟩ := (h.inFlight hb hm).step_progress hr ht
    · exact ⟨.inl hgo.isBusy, fun hd => absurd hgo.isBusy (not_busy_of_done hd)⟩
    · exact ⟨.inr hd, fun _ => hres⟩
  case run =>
    obtain ⟨herr, hlen, hout⟩ := hrun.holdsResult
    have hsame : fetchCommand s' = fetchCommand s := by rw [fetchCommand, ← hcmd, fetchCommand]
    obtain ⟨herr', hlen', hout'⟩ := hsame ▸ hrun'.holdsResult
    exact ⟨herr.trans herr'.symm, hlen.trans hlen'.symm, hout.trans hout'.symm⟩

end Sys2Proof.Machine
end

section
/-! SUPPORT. The memory family (20_memory.md): what the host's reads and an operation's steps leave unchanged (R36). -/

namespace Sys2Proof.Machine

/-- The turns, the replies and the free values are no state of the codec (R10). -/
theorem SameCodec.beside (s : State) (l : List Turn) (r : List Reply) (d : Nat) : SameCodec s (s.beside l r d) := by
  constructor <;> rfl

variable {s t : State}

/-- A host read adds a reply, and may draw a free value; none of the actions that write is a read (R24). -/
theorem hostAction_read_next {a : HostAction}
    (ha : a = .rdStatus ∨ a = .rdOutLen ∨ (∃ b, a = .rdOut b) ∨ a = .rdCmd ∨ a = .rdInLen ∨ ∃ b, a = .rdIn b)
    (h : hostAction a s = .next t) : ∃ r d, t = s.beside s.agenda r d := by
  rcases hostAction_next h with rfl | ⟨-, c, rfl, -⟩ | ⟨-, n, rfl, -⟩ | ⟨-, b, v, rfl, -⟩ |
    ⟨-, rfl, -⟩ | ⟨r, rfl⟩ | ⟨r, rfl⟩ | ⟨rfl, -⟩
  · exact ⟨t.replies, t.draws, rfl⟩
  · simp at ha
  · simp at ha
  · simp at ha
  · simp at ha
  · exact ⟨r :: s.replies, s.draws, rfl⟩
  · exact ⟨r :: s.replies, s.draws + 1, rfl⟩
  · simp at ha

/-- An encode step keeps the command and the message (R36, R72, R73). -/
theorem encStep_keeps_message {α : Alphabet} (h : encStep α s = .next t) :
    t.cmd = s.cmd ∧ t.inLen = s.inLen ∧ t.inMem = s.inMem := by
  rcases encStep_next h with ⟨-, rfl⟩ | ⟨-, -, g, -, -, rfl⟩ | ⟨-, -, rfl⟩
  · exact ⟨rfl, rfl, rfl⟩
  · simp
  · simp

/-- A decode step keeps the command and the message (R36, R97, R98, R99, R108). -/
theorem decStep_keeps_message {α : Alphabet} (h : decStep α s = .next t) :
    t.cmd = s.cmd ∧ t.inLen = s.inLen ∧ t.inMem = s.inMem := by
  rcases decStep_next h with ⟨-, rfl⟩ | ⟨-, x, -, -, rfl⟩ | ⟨-, x, -, -, rfl⟩ |
    ⟨-, -, b, bytes, -, -, -, -, rfl⟩ | ⟨-, -, rfl⟩
  · exact ⟨rfl, rfl, rfl⟩
  · simp
  · simp
  · simp
  · simp

/-- A step of any command keeps the command and the message (R36). -/
theorem exec_keeps_message {i : Instr} (h : exec i s = .next t) :
    t.cmd = s.cmd ∧ t.inLen = s.inLen ∧ t.inMem = s.inMem := by
  rcases exec_cases i s with ⟨-, he⟩ | ⟨-, hd⟩
  · exact encStep_keeps_message (he ▸ h)
  · exact decStep_keeps_message (hd ▸ h)

/-- Settles O53: a host read is a reply beside the codec, and no step of either direction writes `CMD` or the message. -/
theorem readsHaveNoSideEffect : Obligations.ReadsHaveNoSideEffect := by
  refine ⟨fun s t a ha h => ?read, fun i s t h => exec_keeps_message h⟩
  case read =>
    obtain ⟨r, d, rfl⟩ := hostAction_read_next ha h
    exact ⟨.beside s s.agenda r d, rfl, rfl⟩

end Sys2Proof.Machine
end

section
/-! SUPPORT. The encoding family (30_encoding.md): the command words (R45, R46), the lanes of the group buffer (R50, R67), the
final-group padding table (R58). -/

namespace Sys2Proof.Machine

/-! ## The command words -/

theorem decodeCmd_encode (i : Instr) : decodeCmd (encode i) = i := by cases i <;> rfl

/-- Settles O1: the four words evaluate, and encoding inverts decoding on every word. -/
theorem everyCommandWordIsDefined : Obligations.EveryCommandWordIsDefined :=
  ⟨⟨rfl, rfl, rfl, rfl⟩, fun c => ⟨decodeCmd c, rfl, encode_decodeCmd c⟩⟩

/-- Settles O2, by the values of the two bits the decoder looks at. -/
theorem commandFieldsSelectDirectionAndAlphabet : Obligations.CommandFieldsSelectDirectionAndAlphabet := by
  intro c
  unfold decodeCmd
  cases c.getLsbD 1 <;> cases c.getLsbD 0 <;> simp [alphabetOfInstr]

/-- What follows a command's octet decodes with it as the rest (log entry 11). -/
theorem decodeOctets_encodeOctets (i : Instr) (rest : List Byte) :
    decodeOctets (encodeOctets i ++ rest) = .ok (i, rest) := by cases i <;> rfl

@[simp] theorem octetsOf_zero (n : Nat) : octetsOf n 0 = List.replicate n 0#8 := by
  induction n with
  | zero => rfl
  | succ n ih => rw [octetsOf, Nat.zero_div, ih]; rfl

/-- A command word as octets: the command's octet, then zeros. -/
theorem octetsOf_encode (i : Instr) (n : Nat) :
    octetsOf (n + 1) (encode i).toNat = encodeOctets i ++ List.replicate n 0#8 := by
  rw [octetsOf, Nat.div_eq_of_lt (by omega), octetsOf_zero, BitVec.ofNat_toNat]
  rfl

theorem decodeTableWord_encode (i : Instr) {nbits : Nat} (h : 2 ≤ nbits) :
    decodeTableWord nbits (encode i).toNat = some i := by
  have hpow : 2 ^ 2 ≤ 2 ^ nbits := Nat.pow_le_pow_right (by decide) h
  have hoctets : (nbits + 7) / 8 = (nbits - 1) / 8 + 1 := by omega
  rw [decodeTableWord, Nat.mod_eq_of_lt ((encode i).isLt.trans_le hpow), hoctets, octetsOf_encode,
    decodeOctets_encodeOctets]
  simp

/-- An octet of 4 or more has a bit above the command's two (R45; log entry 11). -/
theorem decodeOctets_of_four_le {b : Byte} (h : 4 ≤ b.toNat) (rest : List Byte) :
    decodeOctets (b :: rest) = .error .bitsAboveCommand := by
  refine if_neg fun hz => ?_
  have hhigh : b.toNat / 4 % 64 = 0 := by
    simpa [BitVec.extractLsb'_toNat, Nat.shiftRight_eq_div_pow] using congrArg BitVec.toNat hz
  omega

/-- Settles O3, form by form: the register, the octet, the table word, and the octets that are no command. -/
theorem commandsDecodeAsEncoded : Obligations.CommandsDecodeAsEncoded :=
  ⟨decodeCmd_encode, decodeOctets_encodeOctets, fun i _ => decodeTableWord_encode i,
    fun _ rest h => decodeOctets_of_four_le h rest⟩

/-! ## Index lanes and padding -/

/-- Settles O15: five values and the definitions. -/
theorem finalGroupPaddingTable : Obligations.FinalGroupPaddingTable :=
  ⟨⟨rfl, rfl⟩, ⟨rfl, rfl⟩, ⟨rfl, rfl⟩, ⟨rfl, rfl⟩, ⟨rfl, rfl⟩, fun n => ⟨ceilDiv_five (8 * n), rfl⟩⟩

/-- Bit `r` of byte lane `4 - q` of the group buffer is its bit `8q + r` (R49, R65). -/
theorem encBuf_getLsbD (g : List Byte) {q r : Nat} (hq : q < 5) (hr : r < 8) :
    (encBuf g).getLsbD (8 * q + r) = (g.getD (4 - q) 0).getLsbD r := by
  have habove : ∀ k, 8 ≤ k → ¬ r + k < 8 := fun k hk => by omega
  simp only [encBuf, bufOfBytes, BitVec.getLsbD_append]
  interval_cases q <;> simp [hr, habove, Nat.add_comm _ r]

section Lane
variable (g : List Byte) {j k : Nat}

theorem encIdx_getLsbD {b : Nat} (hb : b < 5) :
    (encIdx (encBuf g) j).getLsbD b = (encBuf g).getLsbD (35 - 5 * j + b) := by
  rw [encIdx, indexLane, BitVec.getLsbD_extractLsb', decide_eq_true hb, Bool.true_and]

/-- An index lane that ends `o` bits above the end of byte lane `k` and lies within it (R50). -/
theorem encIdx_within_byte (hk : k ≤ 4) {o : Nat} (ho : o ≤ 3) (h : 35 - 5 * j = 8 * (4 - k) + o) :
    encIdx (encBuf g) j = (g.getD k 0).extractLsb' o 5 := by
  refine BitVec.eq_of_getLsbD_eq fun b hb => ?_
  rw [encIdx_getLsbD g hb, h, Nat.add_assoc, encBuf_getLsbD g (by omega) (by omega), Nat.sub_sub_self hk,
    BitVec.getLsbD_extractLsb', decide_eq_true hb, Bool.true_and]

/-- An index lane made of the low `w` bits of byte lane `k` and the high `v` bits of the next (R50). -/
theorem encIdx_across_bytes (hk : k ≤ 3) {w v : Nat} (hw : w + v = 5) (h : 35 - 5 * j + v = 8 * (4 - k)) :
    encIdx (encBuf g) j = ((g.getD k 0).extractLsb' 0 w ++ (g.getD (k + 1) 0).extractLsb' (8 - v) v).cast hw := by
  refine BitVec.eq_of_getLsbD_eq fun b hb => ?_
  rw [encIdx_getLsbD g hb, BitVec.getLsbD_cast, BitVec.getLsbD_append]
  split
  case isTrue hlow =>
    rw [show 35 - 5 * j + b = 8 * (3 - k) + (8 - v + b) by omega, encBuf_getLsbD g (by omega) (by omega),
      show 4 - (3 - k) = k + 1 by omega, BitVec.getLsbD_extractLsb', decide_eq_true hlow, Bool.true_and]
  case isFalse hhigh =>
    rw [show 35 - 5 * j + b = 8 * (4 - k) + (b - v) by omega, encBuf_getLsbD g (by omega) (by omega),
      Nat.sub_sub_self (by omega), BitVec.getLsbD_extractLsb', decide_eq_true (by omega), Bool.true_and, Nat.zero_add]

end Lane

/-- A lane is emitted exactly when its top bit, bit `39 - 5j`, is a data bit (R67). -/
theorem lt_nData_iff {n j : Nat} (hn : n ≤ 5) (hj : j ≤ 7) : j < nData n ↔ 40 - 8 * n ≤ 39 - 5 * j := by
  rw [nData, ceilDiv_five]
  omega

/-- Settles O14: a lane holds a data bit exactly when its top bit is one; each lane lies within one byte or across two. -/
theorem indexLanesAreMadeOfByteBits : Obligations.IndexLanesAreMadeOfByteBits := by
  refine ⟨fun n j _ hn hj => ?emitted, fun g0 g1 g2 g3 g4 => ?bits⟩
  case emitted =>
    rw [lt_nData_iff hn hj]
    constructor
    · exact fun h => ⟨39 - 5 * j, by omega, le_rfl, h⟩
    · rintro ⟨b, -, hb, hdata⟩
      exact hdata.trans hb
  case bits =>
    exact ⟨encIdx_within_byte _ (k := 0) (by decide) (by decide) rfl,
      encIdx_across_bytes _ (k := 0) (w := 3) (v := 2) (by decide) rfl rfl,
      encIdx_within_byte _ (k := 1) (by decide) (by decide) rfl,
      encIdx_across_bytes _ (k := 1) (w := 1) (v := 4) (by decide) rfl rfl,
      encIdx_across_bytes _ (k := 2) (w := 4) (v := 1) (by decide) rfl rfl,
      encIdx_within_byte _ (k := 3) (by decide) (by decide) rfl,
      encIdx_across_bytes _ (k := 3) (w := 2) (v := 3) (by decide) rfl rfl,
      encIdx_within_byte _ (k := 4) (by decide) (by decide) rfl⟩

end Sys2Proof.Machine
end

section
/-! SUPPORT. The encoding family (30_encoding.md): the host's pseudo-actions (R63) as runs, and what each leads to (R64). The runs are
said of a state `s` with the pseudo-action put first on its agenda, so that one run's end is the next one's start. -/

namespace Sys2Proof.Machine

variable {s t u : State} {m y : List Byte} {rest : List Turn}

/-! ## Runs of any length -/

/-- Some number of turns leads from `s` to `t`. -/
def Reaches (s t : State) : Prop := ∃ k, runFor k s = .next t

theorem Reaches.of_run {k : Nat} (h : runFor k s = .next t) : Reaches s t := ⟨k, h⟩

theorem Reaches.of_step (h : step s = .next t) : Reaches s t := .of_run (runFor_succ (n := 0) h)

theorem Reaches.trans (h : Reaches s t) (h' : Reaches t u) : Reaches s u := by
  obtain ⟨k, hk⟩ := h
  obtain ⟨n, hn⟩ := h'
  exact .of_run ((runFor_add hk).trans hn)

theorem eq_setAgenda {l : List Turn} (h : s.agenda = l) : s = s.setAgenda l := by
  subst h
  rfl

/-! ## `LOAD` -/

/-- `s` with the octets `vs` in the cells of `IN` from `a` upwards. -/
def State.storeRange (s : State) (a : Nat) (vs : List Byte) : State :=
  { s with inMem := Memory.writeRange s.inMem a vs }

/-- `s` with the message `m` (R17, R48). -/
def State.load (s : State) (m : List Byte) : State := (s.setInLen m.length).storeRange 0 m

theorem message_load (s : State) (m : List Byte) : message (s.load m) = some m :=
  Memory.readRange_writeRange_same s.inMem 0 m

section Write
variable (hb : busy s = false)
include hb

theorem step_wrCmd (c : CmdWord) :
    step (s.setAgenda (.host (.act (.wrCmd c)) :: rest)) = .next ((s.setCmd c).setAgenda rest) :=
  gated_notBusy (s := s.setAgenda rest) hb _

theorem step_wrInLen {n : Nat} (hn : Capacities.fits s.caps.inCap n = true) :
    step (s.setAgenda (.host (.act (.wrInLen n)) :: rest)) = .next ((s.setInLen n).setAgenda rest) :=
  (gated_notBusy (s := s.setAgenda rest) hb _).trans (if_pos hn)

theorem step_wrIn {a : Nat} (ha : Capacities.hasAddress s.caps.inCap a = true) (v : Byte) :
    step (s.setAgenda (.host (.act (.wrIn a v)) :: rest)) = .next ((s.storeIn a v).setAgenda rest) :=
  (gated_notBusy (s := s.setAgenda rest) hb _).trans (if_pos ha)

theorem step_start (hm : message s = some m) :
    step (s.setAgenda (.host (.act .start) :: rest)) = .next (s.begin.setAgenda rest) :=
  actStart_of_message (s := s.setAgenda rest) hb hm

/-- The `WR_IN`s of a `LOAD`, one turn each. -/
theorem runFor_storesFrom (a : Nat) (vs : List Byte) (hf : Capacities.fits s.caps.inCap (a + vs.length) = true) :
    runFor vs.length (s.setAgenda ((storesFrom a vs).map .host ++ rest)) =
      .next ((s.storeRange a vs).setAgenda rest) := by
  induction vs generalizing s a with
  | nil => rfl
  | cons v vs ih =>
    rw [List.length_cons] at hf
    have ha := Capacities.hasAddress_of_fits hf (a := a) (by omega)
    exact (runFor_succ (step_wrIn hb ha v)).trans
      (ih (s := s.storeIn a v) hb (a + 1) (by rwa [Nat.add_right_comm]))

/-- `LOAD` takes a turn of its own, one for `WR_INLEN` and one for each `WR_IN` (R63; log entry 7). -/
theorem runFor_load (hf : Capacities.fits s.caps.inCap m.length = true) :
    runFor (m.length + 2) (s.setAgenda (.host (.load m) :: rest)) = .next ((s.load m).setAgenda rest) := by
  have hexpand : step (s.setAgenda (.host (.load m) :: rest)) =
    .next (s.setAgenda ((loadLines m).map .host ++ rest)) := rfl
  rw [runFor_succ hexpand]
  exact (runFor_succ (step_wrInLen hb hf)).trans
    (runFor_storesFrom (s := s.setInLen m.length) hb 0 m (by rwa [Nat.zero_add]))

end Write

/-- Settles O58: the run of `LOAD`, and what its stores leave alone. -/
theorem loadPlacesTheMessage : Obligations.LoadPlacesTheMessage := by
  intro s m hb hf hag
  rw [eq_setAgenda hag]
  exact ⟨_, runFor_load hb hf, message_load s m, rfl,
    fun a ha => Memory.read_writeRange_outside s.inMem m (.inr (by rwa [Nat.zero_add])), rfl⟩

/-! ## `RESULT` -/

/-- `s` with the replies `l` in front. -/
def State.addReplies (s : State) (l : List Reply) : State := { s with replies := l ++ s.replies }

/-- What a `RESULT` at `DONE` adds to the replies, newest first. -/
def resultReplies (err : Bool) (y : List Byte) : List Reply :=
  y.reverse.map .outOctet ++ [.outLen y.length, .status false true err]

theorem outOctets_map_append (y : List Byte) (l : List Reply) :
    outOctets (y.map .outOctet ++ l) = y ++ outOctets l := by
  induction y with
  | nil => rfl
  | cons v y ih => exact congrArg (v :: ·) ih

theorem dropOutOctets_map_append (y : List Byte) (l : List Reply) :
    dropOutOctets (y.map .outOctet ++ l) = dropOutOctets l := by
  induction y with
  | nil => rfl
  | cons v y ih => exact ih

theorem outOctets_resultReplies (err : Bool) (y : List Byte) (l : List Reply) :
    outOctets (resultReplies err y ++ l) = y.reverse := by
  rw [resultReplies, List.append_assoc, outOctets_map_append]
  exact List.append_nil _

/-- The result the host reads off these replies (R64). -/
theorem resultOf_resultReplies (err : Bool) (y : List Byte) (l : List Reply) :
    resultOf (resultReplies err y ++ l) = some (err, y.length, y) := by
  rw [resultOf, outOctets_resultReplies, List.reverse_reverse, resultReplies, List.append_assoc,
    dropOutOctets_map_append]
  rfl

/-- The result the host reads off the replies of a `RESULT` is the result the state holds (R64). -/
theorem HoldsResult.resultOf_replies {r : Bool × Nat × List Byte} (h : HoldsResult t r) :
    resultOf (t.addReplies (resultReplies t.err r.2.2)).replies = some r := by
  obtain ⟨herr, hlen, hy⟩ := h
  refine (resultOf_resultReplies t.err r.2.2 t.replies).trans ?_
  rw [Memory.readRange_length hy, hlen, herr]

theorem readOutLines_map_host (n : Nat) :
    (readOutLines n).map Turn.host = (List.range' 0 n).map fun b => .host (.act (.rdOut b)) := by
  rw [readOutLines, List.map_map, List.range_eq_range']
  rfl

/-- The last part of a `COPYBACK` loads the octets just read (R63). -/
theorem step_loadBack (h : outOctets s.replies = y.reverse) :
    step (s.setAgenda (.host .loadBack :: rest)) = .next (s.setAgenda (.host (.load y) :: rest)) := by
  rw [← List.reverse_reverse y, ← h]
  rfl

section Done
variable (hs : s.st = .done)
include hs

theorem step_rdStatus_done :
    step (s.setAgenda (.host (.act .rdStatus) :: rest)) =
      .next ((s.reply (.status false true s.err)).setAgenda rest) := by
  have hd : doneView (s.setAgenda rest) = true := (doneView_iff _).2 hs
  refine (actRdStatus_notBusy (s := s.setAgenda rest) ((busy_eq_false_iff s).2 (.inr hs))).trans ?_
  rw [hd]
  rfl

theorem step_rdOutLen_done :
    step (s.setAgenda (.host (.act .rdOutLen) :: rest)) = .next ((s.reply (.outLen s.outLen)).setAgenda rest) :=
  actRdOutLen_notBusy (s := s.setAgenda rest) ((busy_eq_false_iff s).2 (.inr hs))

theorem step_rdOut_done {a : Nat} (ha : a < s.outLen) {v : Byte} (hv : Memory.read s.outMem a = some v) :
    step (s.setAgenda (.host (.act (.rdOut a)) :: rest)) = .next ((s.reply (.outOctet v)).setAgenda rest) :=
  actRdOut_result (s := s.setAgenda rest) hs ha hv

/-- The `RD_OUT`s of a `RESULT`, the newest octet first in the replies. -/
theorem reaches_rdOuts {a : Nat} (ha : a + y.length ≤ s.outLen)
    (hy : Memory.readRange s.outMem a y.length = some y) :
    Reaches (s.setAgenda ((List.range' a y.length).map (fun b => .host (.act (.rdOut b))) ++ rest))
      ((s.addReplies (y.reverse.map .outOctet)).setAgenda rest) := by
  induction y generalizing s a with
  | nil => exact .of_run (k := 0) rfl
  | cons v y ih =>
    rw [List.length_cons] at ha
    obtain ⟨_, _, hcons, hv, hvs⟩ := (Memory.readRange_succ _ _ _ _).1 hy
    cases hcons
    have hrest := ih (s := s.reply (.outOctet v)) hs (a := a + 1) (by simp only [State.reply_outLen]; omega) hvs
    have hreplies : (v :: y).reverse.map Reply.outOctet ++ s.replies =
        y.reverse.map .outOctet ++ .outOctet v :: s.replies := by simp
    rw [State.addReplies, hreplies]
    exact (Reaches.of_step (step_rdOut_done hs (by omega) hv)).trans hrest

/-- The last part of a `RESULT`, once `RD_OUTLEN` has returned the length (R63). -/
theorem reaches_readOut (hl : lastOutLen s.replies = some s.outLen)
    (hy : Memory.readRange s.outMem 0 s.outLen = some y) :
    Reaches (s.setAgenda (.host .readOut :: rest)) ((s.addReplies (y.reverse.map .outOctet)).setAgenda rest) := by
  have hlen := Memory.readRange_length hy
  have hlines : step (s.setAgenda (.host .readOut :: rest)) =
      .next (s.setAgenda ((List.range' 0 y.length).map (fun b => .host (.act (.rdOut b))) ++ rest)) := by
    change hostTurn .readOut (s.setAgenda rest) = _
    simp only [hostTurn, State.setAgenda_replies, hl]
    rw [State.pushLines_eq, readOutLines_map_host, hlen]
    rfl
  exact (Reaches.of_step hlines).trans (reaches_rdOuts hs (by omega) (by rwa [hlen]))

/-- `RESULT` at `DONE` reads the status, the length and every octet of the result (R63, R64). -/
theorem reaches_result (hy : Memory.readRange s.outMem 0 s.outLen = some y) :
    Reaches (s.setAgenda (.host .result :: rest)) ((s.addReplies (resultReplies s.err y)).setAgenda rest) := by
  have hexpand : Reaches (s.setAgenda (.host .result :: rest))
      (s.setAgenda (.host (.act .rdStatus) :: .host (.act .rdOutLen) :: .host .readOut :: rest)) := .of_step rfl
  have hlen := step_rdOutLen_done (s := s.reply (.status false true s.err)) (rest := .host .readOut :: rest) hs
  have hoctets := reaches_readOut (rest := rest)
    (s := (s.reply (.status false true s.err)).reply (.outLen s.outLen)) hs rfl hy
  have hreplies : resultReplies s.err y ++ s.replies =
      y.reverse.map .outOctet ++ .outLen s.outLen :: .status false true s.err :: s.replies := by
    simp [resultReplies, Memory.readRange_length hy]
  rw [State.addReplies, hreplies]
  exact hexpand.trans ((Reaches.of_step (step_rdStatus_done hs)).trans ((Reaches.of_step hlen).trans hoctets))

/-! ## `COPYBACK` -/

/-- `COPYBACK` at `DONE` reads the result and loads it (R63). -/
theorem reaches_copyback (hy : Memory.readRange s.outMem 0 s.outLen = some y)
    (hf : Capacities.fits s.caps.inCap s.outLen = true) :
    Reaches (s.setAgenda (.host .copyback :: rest))
      (((s.addReplies (resultReplies s.err y)).load y).setAgenda rest) := by
  have hexpand : Reaches (s.setAgenda (.host .copyback :: rest))
      (s.setAgenda (.host .result :: .host .loadBack :: rest)) := .of_step rfl
  have hback := step_loadBack (s := s.addReplies (resultReplies s.err y)) (rest := rest)
    (outOctets_resultReplies s.err y s.replies)
  have hload := runFor_load (s := s.addReplies (resultReplies s.err y)) (rest := rest)
    ((busy_eq_false_iff s).2 (.inr hs)) (by rwa [Memory.readRange_length hy])
  exact hexpand.trans ((reaches_result hs hy).trans ((Reaches.of_step hback).trans (.of_run hload)))

end Done

/-- Settles O59: under the invariant the result can be read, and `COPYBACK` loads it. -/
theorem copybackMakesTheResultTheMessage : Obligations.CopybackMakesTheResultTheMessage := by
  intro s h hs hf hag
  obtain ⟨y, hy⟩ := Option.isSome_iff_exists.1 h.lengths.outHeld
  obtain ⟨k, hk⟩ := reaches_copyback (rest := []) hs hy hf
  rw [← eq_setAgenda hag] at hk
  exact ⟨k, _, hk, rfl, Memory.readRange_length hy, (message_load _ y).trans hy.symm, hs, rfl, rfl, rfl, rfl⟩

/-! ## `WAIT` -/

/-- A `WAIT` polls, and goes by the reply (R63). -/
theorem step_wait (h : actRdStatus (s.setAgenda rest) = .next t) :
    step (s.setAgenda (.host .wait :: rest)) = .next (waitOn t) := by
  change hostTurn .wait (s.setAgenda rest) = _
  rw [hostTurn, h]

/-- A poll of a busy codec puts a codec step and the next poll first (R63; log entry 7). -/
theorem step_wait_busy (hb : busy s = true) :
    step (s.setAgenda (.host .wait :: rest)) =
      .next (((s.reply (.status true false (Config.freeBit s.draws))).draw).setAgenda (.codec :: .host .wait :: rest)) :=
  step_wait (actRdStatus_busy (s := s.setAgenda rest) hb)

/-- A poll at `DONE` ends the `WAIT`. -/
theorem step_wait_done (hs : s.st = .done) :
    step (s.setAgenda (.host .wait :: rest)) = .next ((s.reply (.status false true s.err)).setAgenda rest) :=
  step_wait (step_rdStatus_done hs)

theorem CodecStep.agenda_eq (h : CodecStep s m t) : t.agenda = s.agenda := by
  cases h <;> rfl

/-- `WAIT` on an operation in flight ends at `DONE` with the command's result, by induction on the codec steps left (R134). -/
theorem InFlight.wait (h : InFlight s m) :
    ∃ t, Reaches (s.setAgenda (.host .wait :: rest)) (t.setAgenda rest) ∧ t.st = .done ∧
      HoldsResult t (commandResult (fetchCommand s) m) := by
  induction hn : stepsLeft s generalizing s with
  | zero =>
    obtain ⟨t, -, hstep⟩ := h.exists_codecStep
    cases hn.symm.trans (hstep.stepsLeft_eq h.held)
  | succ n ih =>
    have hturn := h.beside (.host .wait :: rest) (.status true false (Config.freeBit s.draws) :: s.replies) (s.draws + 1)
    obtain ⟨t, ht, hstep⟩ := hturn.exists_codecStep
    have hrun := (Reaches.of_step (step_wait_busy (rest := rest) h.isBusy)).trans (.of_step ht)
    have hleft := hstep.stepsLeft_eq hturn.held
    change stepsLeft s = stepsLeft t + 1 at hleft
    rw [eq_setAgenda hstep.agenda_eq] at hrun
    obtain ⟨hcmd, hgo | ⟨hd, hres⟩⟩ := hstep.progress hturn
    · obtain ⟨v, hv, hdone⟩ := ih hgo (by omega)
      rw [fetchCommand, hcmd] at hdone
      exact ⟨v, hrun.trans hv, hdone⟩
    · exact ⟨_, hrun.trans (.of_step (step_wait_done hd)), hd, hres⟩

/-! ## The four calls -/

section Call
variable (hb : busy s = false) (hf : Capacities.fits s.caps.inCap m.length = true) (i : Instr)
include hb hf

/-- The first half of a call: the command and its message are placed, and the operation is started (R63). -/
theorem reaches_begin_of_call :
    Reaches (s.setAgenda (.host (.call i m) :: rest))
      (((s.setCmd (encode i)).load m).begin.setAgenda (.host .wait :: .host .result :: rest)) := by
  have hexpand : Reaches (s.setAgenda (.host (.call i m) :: rest))
      (s.setAgenda ((callLines i m).map .host ++ rest)) := .of_step rfl
  have hload := runFor_load (s := s.setCmd (encode i)) (rest := .host (.act .start) :: .host .wait :: .host .result :: rest)
    hb hf
  have hstart := step_start (s := (s.setCmd (encode i)).load m) (rest := .host .wait :: .host .result :: rest) hb
    (message_load _ m)
  exact hexpand.trans ((Reaches.of_step (step_wrCmd hb _)).trans ((Reaches.of_run hload).trans (.of_step hstart)))

/-- A call from any codec that is not busy gives the command's result on its message (R63, R64). -/
theorem reaches_call (hw : s.caps.wellFormed = true) :
    ∃ t : State, Reaches (s.setAgenda (.host (.call i m) :: rest)) (t.setAgenda rest) ∧
      resultOf t.replies = some (commandResult i m) := by
  have hflight := inFlight_begin (s := (s.setCmd (encode i)).load m) hw hf (message_load _ m)
  have hcmd : fetchCommand ((s.setCmd (encode i)).load m).begin = i := decodeCmd_encode i
  obtain ⟨t, hwait, hd, hres⟩ := hflight.wait (rest := .host .result :: rest)
  rw [hcmd] at hres
  have ⟨_, _, hy⟩ := hres
  have hread := reaches_result (rest := rest) hd hy
  exact ⟨_, (reaches_begin_of_call hb hf i).trans (hwait.trans hread), hres.resultOf_replies⟩

end Call

/-- Settles O60: after reset the codec is not busy. -/
theorem callsGiveTheFunctionsResult : Obligations.CallsGiveTheFunctionsResult := by
  intro c m hw hf i
  obtain ⟨t, ⟨k, hk⟩, hres⟩ := reaches_call (s := State.resetWith c) (rest := []) rfl hf i hw
  exact ⟨k, _, hk, rfl, hres⟩

end Sys2Proof.Machine
end

section
/-! SUPPORT. The encoder family (40_encoder.md): the group buffer and its index lanes (R65, R66), a group's eight text symbols under
each alphabet (R68, R76), the shape and the length of a whole text (R70, R77). -/

namespace Sys2Proof.Machine

/-! ## The group buffer -/

/-- The value of a word put in front of `n` more bits. -/
theorem toNat_append_eq_add {w n : Nat} (x : BitVec w) (y : BitVec n) :
    (x ++ y).toNat = x.toNat * 2 ^ n + y.toNat := by
  rw [BitVec.toNat_append, ← Nat.shiftLeft_add_eq_or_of_lt y.isLt, Nat.shiftLeft_eq]

/-- What byte `k` of a group adds to the buffer's value (R65); a byte the group does not have adds nothing. -/
def byteWeight (g : List Byte) (k : Nat) : Nat := (g.getD k 0).toNat * 2 ^ (32 - 8 * k)

theorem byteWeight_of_length_le {g : List Byte} {k : Nat} (h : g.length ≤ k) : byteWeight g k = 0 := by
  rw [byteWeight, List.getD_eq_default _ _ h]
  exact Nat.zero_mul _

theorem encBuf_toNat (g : List Byte) : (encBuf g).toNat = ((List.range 5).map (byteWeight g)).sum := by
  simp only [encBuf, bufOfBytes, toNat_append_eq_add, List.sum_range_succ, byteWeight]
  simp only [List.range_zero, List.map_nil, List.sum_nil]
  omega

/-- The sum may stop at the group's end (R65). -/
theorem sum_byteWeight {g : List Byte} {n : Nat} (h : g.length ≤ n) :
    ((List.range n).map (byteWeight g)).sum = ((List.range g.length).map (byteWeight g)).sum := by
  induction n, h using Nat.le_induction with
  | base => rfl
  | succ n h ih => rw [List.sum_range_succ, ih, byteWeight_of_length_le h, Nat.add_zero]

/-- The byte lanes of a group's buffer are its bytes, the lanes past them zero (R49, R65). -/
theorem byteLane_encBuf (g : List Byte) {k : Nat} (hk : k ≤ 4) : byteLane (encBuf g) k = g.getD k 0 := by
  refine BitVec.eq_of_getLsbD_eq fun b hb => ?_
  rw [byteLane, BitVec.getLsbD_extractLsb', decide_eq_true hb, Bool.true_and, show 32 - 8 * k = 8 * (4 - k) by omega,
    encBuf_getLsbD g (by omega) hb, Nat.sub_sub_self hk]

theorem encBuf_getLsbD_below (g : List Byte) {b : Nat} (h : b < 40 - 8 * g.length) : (encBuf g).getLsbD b = false := by
  rw [← Nat.div_add_mod b 8, encBuf_getLsbD g (by omega) (by omega), List.getD_eq_default _ _ (by omega)]
  exact BitVec.getLsbD_zero

/-- Settles O12: the value as a sum over the lanes, and the lanes bit by bit. -/
theorem groupBufferPlacesBytes : Obligations.GroupBufferPlacesBytes := by
  refine ⟨fun g _ hg => ⟨?_, fun k hk => ?_, fun b => encBuf_getLsbD_below g⟩, by decide, by decide⟩
  · exact (encBuf_toNat g).trans (sum_byteWeight hg)
  · exact (byteLane_encBuf g (by omega)).trans (List.getD_eq_getElem g 0 hk)

/-- Settles O13: a slice is a shift and a remainder. -/
theorem indexLanesSliceTheBuffer : Obligations.IndexLanesSliceTheBuffer := by
  refine ⟨fun B j _ => ⟨?_, fun b hb => ?_⟩, by decide⟩
  · rw [encIdx, indexLane, BitVec.extractLsb'_toNat, Nat.shiftRight_eq_div_pow]
  · rw [encIdx, indexLane, BitVec.getLsbD_extractLsb', decide_eq_true hb, Bool.true_and]

/-! ## The two tables -/

theorem romEnc_mem (α : Alphabet) (i : Index) : romEnc α i ∈ symbolsOf α := by
  have hi : i.toNat < (symbolsOf α).length := by rw [symbolsOf_length]; exact i.isLt
  rw [romEnc, List.getD_eq_getElem _ _ hi]
  exact List.getElem_mem hi

theorem padOctet_not_mem (α : Alphabet) : padOctet ∉ symbolsOf α := by cases α <;> decide

theorem ne_padOctet_of_mem {α : Alphabet} {c : Byte} (h : c ∈ symbolsOf α) : c ≠ padOctet :=
  fun hc => padOctet_not_mem α (hc ▸ h)

/-- An octet has an index exactly when it is a symbol of the alphabet (R55, R82). -/
theorem romDec_isSome_iff {α : Alphabet} {c : Byte} : (romDec α c).isSome = true ↔ c ∈ symbolsOf α := by
  simp [romDec]

/-- The reverse mapping inverts the alphabet (R55). -/
theorem romDec_romEnc (α : Alphabet) (i : Index) : romDec α (romEnc α i) = some i := by
  revert i
  cases α <;> decide

theorem romDec_padOctet (α : Alphabet) : romDec α padOctet = none := by cases α <;> rfl

theorem allSymbols_iff {α : Alphabet} {d : List Byte} : allSymbols α d = true ↔ ∀ c ∈ d, c ∈ symbolsOf α := by
  simp only [allSymbols, List.all_eq_true, romDec_isSome_iff]

/-! ## Symbols, then padding -/

/-- The text `t` is the symbols `d` of the alphabet, then `p` padding octets (R68, R77). -/
structure SymbolsThenPadding (α : Alphabet) (t d : List Byte) (p : Nat) : Prop where
  text : t = d ++ List.replicate p padOctet
  symbols : ∀ c ∈ d, c ∈ symbolsOf α

namespace SymbolsThenPadding
variable {α : Alphabet} {t d u e : List Byte} {p : Nat}

theorem append (h : SymbolsThenPadding α t d 0) (h' : SymbolsThenPadding α u e p) :
    SymbolsThenPadding α (t ++ u) (d ++ e) p where
  text := by rw [h.text, h'.text]; simp
  symbols := fun c hc => (List.mem_append.1 hc).elim (h.symbols c) (h'.symbols c)

theorem filter_ne (h : SymbolsThenPadding α t d p) : t.filter (· != padOctet) = d := by
  have hd : d.filter (· != padOctet) = d := List.filter_eq_self.2 fun c hc => by simp [ne_padOctet_of_mem (h.symbols c hc)]
  rw [h.text, List.filter_append, hd, List.filter_replicate]
  simp

theorem filter_eq (h : SymbolsThenPadding α t d p) : t.filter (· == padOctet) = List.replicate p padOctet := by
  have hd : d.filter (· == padOctet) = [] :=
    List.filter_eq_nil_iff.2 fun c hc => by simp [ne_padOctet_of_mem (h.symbols c hc)]
  rw [h.text, List.filter_append, hd, List.filter_replicate]
  simp

theorem length_eq (h : SymbolsThenPadding α t d p) : t.length = d.length + p := by
  rw [h.text, List.length_append, List.length_replicate]

/-- The trailing run is the padding (R84). -/
theorem trailingRun_eq (h : SymbolsThenPadding α t d p) : trailingRun t = p := by
  have hd : d.reverse.takeWhile (· == padOctet) = [] := List.takeWhile_eq_nil_iff.2 fun hl heq =>
    ne_padOctet_of_mem (h.symbols _ (List.mem_reverse.1 (List.getElem_mem hl))) (eq_of_beq heq)
  rw [trailingRun, h.text, List.reverse_append, List.reverse_replicate, List.takeWhile_append_of_pos (by simp), hd]
  simp

theorem dataLength_eq (h : SymbolsThenPadding α t d p) : dataLength t = d.length := by
  rw [dataLength, h.trailingRun_eq, h.length_eq, Nat.add_sub_cancel]

/-- The data portion is the symbols (R84). -/
theorem dataPortion_eq (h : SymbolsThenPadding α t d p) : dataPortion t = d := by
  rw [dataPortion, h.dataLength_eq, h.text, List.take_left]

/-- Of such a text the validator asks about its lengths only (R85, R86). -/
theorem validText_eq (h : SymbolsThenPadding α t d p) : validText α t = accepted (d.length % 8) p := by
  rw [validText, h.dataPortion_eq, h.dataLength_eq, h.trailingRun_eq, allSymbols_iff.2 h.symbols, Bool.true_and]

/-- The symbols alone, the text with its padding stripped. -/
theorem stripped (h : SymbolsThenPadding α t d p) : SymbolsThenPadding α d d 0 where
  text := by simp
  symbols := h.symbols

end SymbolsThenPadding

/-! ## The text of a group -/

/-- The symbols of a group's text, its padding left out (R68). -/
def groupSymbols (α : Alphabet) (g : List Byte) : List Byte :=
  (List.range (nData g.length)).map fun j => romEnc α (encIdx (encBuf g) j)

@[simp] theorem groupSymbols_length (α : Alphabet) (g : List Byte) : (groupSymbols α g).length = nData g.length := by
  simp [groupSymbols]

theorem nData_le {n : Nat} (h : n ≤ 5) : nData n ≤ 8 := by
  rw [nData, ceilDiv_five]
  omega

theorem encGroup_getElem? (α : Alphabet) (g : List Byte) {j : Nat} (hj : j < 8) :
    (encGroup α g)[j]? = some (if j < nData g.length then romEnc α (encIdx (encBuf g) j) else padOctet) := by
  simp [encGroup, hj]

/-- A group's text is its symbols, then its padding (R68). -/
theorem encGroup_shape (α : Alphabet) {g : List Byte} (hg : g.length ≤ 5) :
    SymbolsThenPadding α (encGroup α g) (groupSymbols α g) (nPad g.length) where
  text := by
    have hn : 8 = nData g.length + nPad g.length := (Nat.add_sub_cancel' (nData_le hg)).symm
    rw [encGroup, hn, List.range_add, List.map_append, groupSymbols]
    congr 1
    · exact List.map_congr_left fun j hj => if_pos (List.mem_range.1 hj)
    · rw [List.map_map, List.eq_replicate_iff]
      simp
  symbols := fun c hc => by
    obtain ⟨j, -, rfl⟩ := List.mem_map.1 hc
    exact romEnc_mem α _

/-- Settles O16: the entries as the definition lists them, and their split at the last symbol. -/
theorem groupTextIsSymbolsThenPadding : Obligations.GroupTextIsSymbolsThenPadding := by
  refine ⟨fun α g _ hg => ⟨encGroup_length α g, fun j hj => ?_, ?_⟩, by decide, by decide⟩
  · rw [encGroup_length] at hj
    exact (List.getElem_eq_iff _).2 (encGroup_getElem? α g hj)
  · have hshape := encGroup_shape α hg
    exact ⟨groupSymbols α g, hshape.text, groupSymbols_length α g, hshape.symbols⟩

/-- Settles O17: a symbol maps back to the index it was printed for, which no alphabet enters, and padding maps to none. -/
theorem alphabetsDifferOnlyInPrintedSymbol : Obligations.AlphabetsDifferOnlyInPrintedSymbol := by
  intro g j _ _ hj
  refine ⟨_, _, encGroup_getElem? .standard g hj, encGroup_getElem? .hexExtended g hj, ?_⟩
  by_cases h : j < nData g.length
  case pos =>
    have hne : ∀ α, romEnc α (encIdx (encBuf g) j) ≠ padOctet := fun α => ne_padOctet_of_mem (romEnc_mem α _)
    simp only [h, if_true, hne, romDec_romEnc, and_self]
  case neg => simp only [h, if_false, romDec_padOctet, and_self]

/-! ## The text of a payload -/

/-- Texts go over a boundary of the groups (R69). -/
theorem encodeMessage_append (α : Alphabet) {x : List Byte} (hx : x.length % 5 = 0) (y : List Byte) :
    encodeMessage α (x ++ y) = encodeMessage α x ++ encodeMessage α y := by
  rw [encodeMessage, cuts_append 5 (by decide) x y hx, List.flatMap_append]
  rfl

/-- A short payload is one group (R69). -/
theorem encodeMessage_of_group (α : Alphabet) {g : List Byte} (hne : g ≠ []) (hl : g.length ≤ 5) :
    encodeMessage α g = encGroup α g := by
  simpa using encodeMessage_append_group α [] g rfl hne hl

/-- Induction over the groups of a payload, the first group first (R69). -/
theorem group_induction {P : List Byte → Prop} (short : ∀ m, m.length < 5 → P m)
    (group : ∀ g m, g.length = 5 → P m → P (g ++ m)) (m : List Byte) : P m := by
  induction hn : m.length using Nat.strong_induction_on generalizing m with
  | _ n ih =>
    rcases Nat.lt_or_ge m.length 5 with h | h
    · exact short m h
    · rw [← List.take_append_drop 5 m]
      refine group _ _ (List.length_take_of_le h) (ih _ ?_ _ rfl)
      rw [List.length_drop]
      omega

theorem encodeMessage_length_eq (α : Alphabet) (m : List Byte) : (encodeMessage α m).length = 8 * ceilDiv m.length 5 := by
  rw [encodeMessage_length, cuts_length]

/-- A text is one symbol for each 5 bits begun, then padding (R70, R77). -/
theorem encodeMessage_shape (α : Alphabet) (m : List Byte) :
    ∃ d p, SymbolsThenPadding α (encodeMessage α m) d p ∧ d.length = ceilDiv (8 * m.length) 5 := by
  induction m using group_induction with
  | short m hm =>
    rcases eq_or_ne m [] with rfl | hne
    · exact ⟨[], 0, ⟨by simp, by simp⟩, rfl⟩
    · rw [encodeMessage_of_group α hne hm.le]
      exact ⟨_, _, encGroup_shape α hm.le, groupSymbols_length α m⟩
  | group g m hg ih =>
    obtain ⟨d, p, hshape, hd⟩ := ih
    have hfirst : SymbolsThenPadding α (encGroup α g) (groupSymbols α g) 0 := by
      simpa [hg, nPad, nData, ceilDiv] using encGroup_shape α hg.le
    rw [encodeMessage_append α (by rw [hg]), encodeMessage_of_group α (List.ne_nil_of_length_pos (by omega)) hg.le]
    refine ⟨_, p, hfirst.append hshape, ?_⟩
    rw [List.length_append, groupSymbols_length, hd, List.length_append, hg, nData, ceilDiv_five, ceilDiv_five, ceilDiv_five]
    omega

/-- Settles O18: the padding is what the symbols leave of the text's length. -/
theorem encodedLengthAndCounts : Obligations.EncodedLengthAndCounts := by
  intro α m
  obtain ⟨d, p, hshape, hd⟩ := encodeMessage_shape α m
  refine ⟨encodeMessage_nil α, encodeMessage_length_eq α m, by rw [hshape.filter_ne, hd], ?_⟩
  have hlen := hshape.length_eq
  rw [encodeMessage_length_eq, hd] at hlen
  simp only [hshape.filter_eq, List.length_replicate, nPad, nData, ceilDiv_five] at hlen ⊢
  split <;> omega

/-- Settles O19: the padding is 0, 1, 3, 4 or 6 with the symbols' count to match, which is all the validator asks. -/
theorem encodedTextIsWellFormed : Obligations.EncodedTextIsWellFormed := by
  intro α m
  obtain ⟨d, p, hshape, hd⟩ := encodeMessage_shape α m
  have hlen := hshape.length_eq
  rw [encodeMessage_length_eq] at hlen
  have hpair : (d.length % 8 = 0 ∧ p = 0) ∨ (d.length % 8 = 2 ∧ p = 6) ∨ (d.length % 8 = 4 ∧ p = 4) ∨
      (d.length % 8 = 5 ∧ p = 3) ∨ (d.length % 8 = 7 ∧ p = 1) := by
    rw [ceilDiv_five] at hd hlen
    obtain ⟨r, hr⟩ : ∃ r, m.length % 5 = r := ⟨_, rfl⟩
    have hlt : r < 5 := hr ▸ Nat.mod_lt _ (by decide)
    interval_cases r <;> omega
  have haccepted : accepted (d.length % 8) p = true ∧ accepted (d.length % 8) 0 = true := by
    rcases hpair with ⟨hr, rfl⟩ | ⟨hr, rfl⟩ | ⟨hr, rfl⟩ | ⟨hr, rfl⟩ | ⟨hr, rfl⟩ <;> rw [hr] <;> exact ⟨rfl, rfl⟩
  obtain ⟨hpadded, hstripped⟩ := haccepted
  exact ⟨d, p, hshape.text, hshape.symbols, by omega, by rw [encodeMessage_length_eq]; omega,
    hshape.validText_eq.trans hpadded, hshape.stripped.validText_eq.trans hstripped⟩

end Sys2Proof.Machine
end

section
/-! SUPPORT. The encoder family (40_encoder.md): the steps `ENC.GROUP` and `ENC.END` with their frame (R72, R73), and an encode from
`START` to `DONE`, the codec alone and with turns of the host between (R74, R75). -/

namespace Sys2Proof.Machine

variable {s t u : State} {m : List Byte}

/-! ## What an encode step leaves alone -/

/-- What the encode steps from `s` to `t` leave alone: all but `ST`, `RP`, `OUT_LEN` and the cells of `OUT` between the two lengths
(R71, R72, R73). -/
structure EncodeFrame (s t : State) : Prop extends SameSurroundings s t where
  cmd : t.cmd = s.cmd
  inLen : t.inLen = s.inLen
  inMem : t.inMem = s.inMem
  dlen : t.dlen = s.dlen
  err : t.err = s.err
  outLen_le : s.outLen ≤ t.outLen
  outMem : ∀ a, a < s.outLen ∨ t.outLen ≤ a → Memory.read t.outMem a = Memory.read s.outMem a

theorem SameSurroundings.refl (s : State) : SameSurroundings s s := ⟨rfl, rfl, rfl, rfl⟩

theorem SameSurroundings.trans (h : SameSurroundings s t) (h' : SameSurroundings t u) : SameSurroundings s u :=
  ⟨h'.caps.trans h.caps, h'.agenda.trans h.agenda, h'.replies.trans h.replies, h'.draws.trans h.draws⟩

theorem EncodeFrame.refl (s : State) : EncodeFrame s s :=
  ⟨.refl s, rfl, rfl, rfl, rfl, rfl, le_rfl, fun _ _ => rfl⟩

theorem EncodeFrame.trans (h : EncodeFrame s t) (h' : EncodeFrame t u) : EncodeFrame s u where
  toSameSurroundings := h.toSameSurroundings.trans h'.toSameSurroundings
  cmd := h'.cmd.trans h.cmd
  inLen := h'.inLen.trans h.inLen
  inMem := h'.inMem.trans h.inMem
  dlen := h'.dlen.trans h.dlen
  err := h'.err.trans h.err
  outLen_le := h.outLen_le.trans h'.outLen_le
  outMem := fun a ha => by
    have h1 := h.outLen_le
    have h2 := h'.outLen_le
    rw [h'.outMem a (by omega), h.outMem a (by omega)]

/-- An append at `OUT_LEN` leaves every cell below and above it alone (R27). -/
theorem State.read_produce_outside (s : State) (bs : List Byte) (d : Nat) {a : Nat}
    (h : a < s.outLen ∨ s.outLen + bs.length ≤ a) :
    Memory.read (s.produce bs d).outMem a = Memory.read s.outMem a :=
  Memory.read_writeRange_outside _ _ h

theorem EncodeFrame.produce (s : State) (bs : List Byte) (d : Nat) : EncodeFrame s (s.produce bs d) :=
  ⟨⟨rfl, rfl, rfl, rfl⟩, rfl, rfl, rfl, rfl, rfl, Nat.le_add_right _ _, fun _ => s.read_produce_outside bs d⟩

theorem EncodeFrame.finish (s : State) : EncodeFrame s s.finish :=
  ⟨⟨rfl, rfl, rfl, rfl⟩, rfl, rfl, rfl, rfl, rfl, le_rfl, fun _ _ => rfl⟩

theorem encStep_frame {α : Alphabet} (h : encStep α s = .next t) : EncodeFrame s t := by
  rcases encStep_next h with ⟨-, rfl⟩ | ⟨-, -, g, -, -, rfl⟩ | ⟨-, -, rfl⟩
  · exact .refl t
  · exact .produce s _ _
  · exact .finish s

/-- What an encode step does to `ST` and the two pointers: `ENC.GROUP` alone moves the pointers, `ENC.END` alone moves `ST` (R72, R73). -/
theorem encStep_pointers {α : Alphabet} (h : encStep α s = .next t) :
    (t.st = s.st ∨ (s.st = .xfer ∧ t.st = .done)) ∧
    (¬(s.st = .xfer ∧ s.rp < s.inLen) → t.rp = s.rp ∧ t.outLen = s.outLen) ∧
    t.outLen = s.outLen + (if s.st = .xfer ∧ s.rp < s.inLen then 8 else 0) := by
  rcases encStep_next h with ⟨hb, rfl⟩ | ⟨hs, hlt, g, -, -, rfl⟩ | ⟨hs, he, rfl⟩
  · have hs : t.st ≠ .xfer := fun hs => by simp [busy, hs] at hb
    simp [hs]
  · simp [hs, hlt]
  · simp [hs, he]

/-- Settles O36: the frame, with the length it speaks of worked out. -/
theorem encodeStepFrame : Obligations.EncodeStepFrame := by
  intro i s t hi h
  rw [exec_encode hi] at h
  have hframe := encStep_frame h
  obtain ⟨hst, hkept, hlen⟩ := encStep_pointers h
  exact ⟨hframe.cmd, hframe.inLen, hframe.inMem, hframe.dlen, hframe.err, hst, hkept,
    fun a ha => hframe.outMem a (hlen ▸ ha), hframe.toSameSurroundings⟩

/-! ## The two steps -/

/-- `ENC.GROUP` on a group that can be read, with room for its symbols (R72). -/
theorem encGroupStep_next {α : Alphabet} {g : List Byte} (hlt : s.rp < s.inLen)
    (hg : Memory.readRange s.inMem s.rp (min 5 (s.inLen - s.rp)) = some g)
    (hf : Capacities.fits s.caps.outCap (s.outLen + 8) = true) :
    encGroupStep α s = .next (s.produce (encGroup α g) (min 5 (s.inLen - s.rp))) := by
  rw [encGroupStep, memRead_eq (by omega) hg, memAppend_eq (by rwa [encGroup_length])]

/-- Settles O32: the step is an append at `OUT_LEN`. -/
theorem encodeGroupStepTakesOneGroup : Obligations.EncodeGroupStepTakesOneGroup := by
  intro i s g hi hs hlt hg hf
  refine ⟨s.produce (encGroup (alphabetOfInstr i) g) (min 5 (s.inLen - s.rp)), ?_, rfl, by simp,
    fun j hj => Memory.read_writeRange_inside _ _ _ j hj, fun a ha => ?_, rfl, rfl, rfl, rfl, rfl, rfl, rfl, rfl, rfl, rfl⟩
  · rw [exec_encode hi, encStep_group hs hlt, encGroupStep_next hlt hg hf]
  · exact s.read_produce_outside _ _ (by rwa [encGroup_length])

/-! ## The codec alone -/

/-- The text of whole groups is the first part of the text (R69, R72). -/
theorem encodeMessage_take (α : Alphabet) (m : List Byte) (q : Nat) :
    encodeMessage α (m.take (5 * q)) = (encodeMessage α m).take (8 * q) := by
  rcases Nat.le_total (5 * q) m.length with h | h
  · have hx : (m.take (5 * q)).length = 5 * q := List.length_take_of_le h
    have htext : (encodeMessage α (m.take (5 * q))).length = 8 * q := by
      rw [encodeMessage_length_eq, hx, ceilDiv_five]
      omega
    have happend := encodeMessage_append α (by rw [hx]; exact Nat.mul_mod_right 5 q) (m.drop (5 * q))
    rw [List.take_append_drop] at happend
    rw [happend, List.take_left' htext]
  · rw [List.take_of_length_le h, List.take_of_length_le]
    rw [encodeMessage_length_eq, ceilDiv_five]
    omega

/-- An encode in flight is in `XFER` (R18). -/
theorem InFlight.encodeUnderway (h : InFlight s m) (hop : opIsDecode s = false) : s.st = .xfer ∧ EncodeUnderway s m := by
  cases h.phase with
  | encode hs _ he => exact ⟨hs, he⟩
  | check _ hop' | decode _ hop' => cases hop.symm.trans hop'

/-- An encode in flight with octets left takes a group and stays in flight (R72). -/
theorem InFlight.exists_encGroup (h : InFlight s m) (hop : opIsDecode s = false) (hlt : s.rp < s.inLen) :
    ∃ g, encStep (alphabetOf s.cmd) s = .next (s.produce (encGroup (alphabetOf s.cmd) g) (min 5 (s.inLen - s.rp))) ∧
      InFlight (s.produce (encGroup (alphabetOf s.cmd) g) (min 5 (s.inLen - s.rp))) m := by
  obtain ⟨t, ht, hstep⟩ := h.exists_codecStep
  rw [exec_of_encode hop] at ht
  have hprogress := hstep.progress h
  cases hstep with
  | encGroup hs _ _ _ hn =>
    subst hn
    obtain ⟨-, hgo | ⟨hd, -⟩⟩ := hprogress
    · exact ⟨_, ht, hgo⟩
    · cases hs.symm.trans hd
  | encEnd _ _ _ he => exact absurd he hlt.ne
  | decAccept _ hop' | decReject _ hop' | decBlock _ hop' | decEnd _ hop' => cases hop.symm.trans hop'

/-- The codec alone, `q` groups after the `START` of an encode at `s` (R72). -/
structure AfterGroups (s : State) (m : List Byte) (q : Nat) (t : State) : Prop where
  inFlight : InFlight t m
  isEncode : opIsDecode t = false
  rp : t.rp = min (5 * q) m.length
  frame : EncodeFrame (s.begin.setAgenda []) t

namespace AfterGroups
variable {q : Nat}

theorem step_eq (h : AfterGroups s m q t) : step t = encStep (alphabetOf t.cmd) t := by
  rw [step_empty h.frame.agenda, exec_of_encode h.isEncode]

/-- `ENC.GROUP`, as long as there is a group left. -/
theorem step_group (h : AfterGroups s m q t) (hq : q < ceilDiv m.length 5) :
    ∃ u, step t = .next u ∧ AfterGroups s m (q + 1) u := by
  have hlen := message_length h.inFlight.held
  have hrp := h.rp
  rw [ceilDiv_five] at hq
  obtain ⟨g, hg, hgo⟩ := h.inFlight.exists_encGroup h.isEncode (by omega)
  exact ⟨_, h.step_eq.trans hg, hgo, h.isEncode, by rw [State.produce_rp]; omega, h.frame.trans (.produce t _ _)⟩

theorem outLen_eq (h : AfterGroups s m q t) (hq : q ≤ ceilDiv m.length 5) : t.outLen = 8 * q := by
  obtain ⟨-, hu⟩ := h.inFlight.encodeUnderway h.isEncode
  rw [hu.outLen_eq h.inFlight.held, h.rp]
  rw [ceilDiv_five] at hq
  omega

/-- `OUT` holds the text of the groups taken (R72). -/
theorem outHolds (h : AfterGroups s m q t) (hq : q ≤ ceilDiv m.length 5) :
    Memory.readRange t.outMem 0 (8 * q) = some ((encodeMessage (alphabetOf s.cmd) m).take (8 * q)) := by
  obtain ⟨-, hu⟩ := h.inFlight.encodeUnderway h.isEncode
  have hout := hu.outHolds
  rwa [h.outLen_eq hq, h.rp, ← List.take_eq_take_min, encodeMessage_take, h.frame.cmd] at hout

/-- After the last group the whole payload has been taken. -/
theorem rp_eq_inLen (h : AfterGroups s m (ceilDiv m.length 5) t) : t.rp = t.inLen := by
  rw [h.rp, ← message_length h.inFlight.held, ceilDiv_five]
  omega

/-- `ENC.END`, after the last group (R73). -/
theorem step_end (h : AfterGroups s m (ceilDiv m.length 5) t) : step t = .next t.finish := by
  obtain ⟨hs, -⟩ := h.inFlight.encodeUnderway h.isEncode
  exact h.step_eq.trans (encStep_end hs h.rp_eq_inLen)

end AfterGroups

section Alone
variable (h : ReadyToStart s m)
include h

theorem ReadyToStart.runFor_start : runFor 1 s = .next (s.begin.setAgenda []) := by
  rw [eq_setAgenda h.turns]
  exact runFor_succ (step_start h.notBusy h.held)

theorem ReadyToStart.runFor_groups (hop : opIsDecode s = false) {q : Nat} (hq : q ≤ ceilDiv m.length 5) :
    ∃ t, runFor (1 + q) s = .next t ∧ AfterGroups s m q t := by
  induction q with
  | zero =>
    have hflight := (inFlight_begin h.capacities h.inLenFits h.held).beside [] s.replies s.draws
    exact ⟨_, h.runFor_start, hflight, hop, (Nat.zero_min _).symm, .refl _⟩
  | succ q ih =>
    obtain ⟨t, ht, hafter⟩ := ih (by omega)
    obtain ⟨u, hu, hnext⟩ := hafter.step_group hq
    exact ⟨u, (runFor_add ht).trans (runFor_succ (n := 0) hu), hnext⟩

/-- A whole encode, the codec alone: every group, then `ENC.END` (R74, R75). -/
theorem ReadyToStart.runFor_encode (hop : opIsDecode s = false) :
    ∃ t, AfterGroups s m (ceilDiv m.length 5) t ∧ runFor (1 + ceilDiv m.length 5) s = .next t ∧
      runFor (1 + (ceilDiv m.length 5 + 1)) s = .next t.finish := by
  obtain ⟨t, ht, hafter⟩ := h.runFor_groups hop le_rfl
  exact ⟨t, hafter, ht, (runFor_add ht).trans (runFor_succ (n := 0) hafter.step_end)⟩

end Alone

/-- Settles O34: the state after `q` groups. -/
theorem encodeProgressesGroupByGroup : Obligations.EncodeProgressesGroupByGroup := by
  intro s m q h hop hq
  obtain ⟨t, ht, hafter⟩ := h.runFor_groups hop hq
  obtain ⟨hs, -⟩ := hafter.inFlight.encodeUnderway hafter.isEncode
  exact ⟨t, ht, hs, message_length hafter.inFlight.held ▸ hafter.rp, hafter.outLen_eq hq, hafter.outHolds hq⟩

/-- Settles O33: the row of R18's table, and a whole encode of no groups. -/
theorem encodeEndStepOnlySetsDone : Obligations.EncodeEndStepOnlySetsDone := by
  refine ⟨fun i s hi hs he => ?_, fun s h hop => ?_⟩
  · rw [exec_encode hi]
    exact encStep_end hs he
  · obtain ⟨t, hafter, hgroups, hend⟩ := h.runFor_encode hop
    obtain ⟨hs, -⟩ := hafter.inFlight.encodeUnderway hafter.isEncode
    exact ⟨t, t.finish, hgroups, hs, hend, rfl, hafter.outLen_eq le_rfl, hafter.inFlight.errClear⟩

/-! ## The codec and the host -/

/-- From `s` to `t` no cell of `OUT` past the result has been written (R27, R36). -/
def OutKeptPast (s t : State) : Prop :=
  ∀ a, t.outLen ≤ a → s.outLen ≤ a ∧ Memory.read t.outMem a = Memory.read s.outMem a

theorem OutKeptPast.trans (h : OutKeptPast s t) (h' : OutKeptPast t u) : OutKeptPast s u := fun a ha => by
  obtain ⟨ht, htu⟩ := h' a ha
  obtain ⟨hs, hst⟩ := h a ht
  exact ⟨hs, htu.trans hst⟩

/-- The same result in the same cells. -/
theorem OutKeptPast.of_eq (hlen : t.outLen = s.outLen) (hmem : t.outMem = s.outMem) : OutKeptPast s t :=
  fun _ ha => ⟨hlen ▸ ha, by rw [hmem]⟩

theorem OutKeptPast.produce (s : State) (bs : List Byte) (d : Nat) : OutKeptPast s (s.produce bs d) :=
  fun _ ha => ⟨(Nat.le_add_right _ _).trans ha, s.read_produce_outside bs d (.inr ha)⟩

/-- No step of R18's table writes past the result; `DEC.CHECK` has none to clear (R97, R108). -/
theorem InFlight.outKeptPast (h : InFlight s m) (hstep : CodecStep s m t) : OutKeptPast s t := by
  cases hstep with
  | encGroup | decBlock => exact .produce s _ _
  | encEnd | decAccept | decEnd => exact .of_eq rfl rfl
  | decReject hs =>
    cases h.phase with
    | check _ _ _ _ ho => exact .of_eq ho.symm rfl
    | encode hs' | decode hs' => cases hs.symm.trans hs'

/-- What holds after `START`, and is kept by every step while the operation is in flight and by every step at `DONE`, holds at the end
of the operation, whatever turns the host takes (R18). -/
theorem OperationRun.induction {P : State → Prop} (h : OperationRun s m t)
    (start : ∀ rest, P (s.begin.setAgenda rest))
    (inFlight : ∀ u v, InFlight u m → ¬ hostNext u .reset → step u = .next v → P u → P v)
    (done : ∀ u v, u.st = .done → v.st = .done → step u = .next v → P u → P v) : P t := by
  obtain ⟨k, n, hk, hbusy, hdone, ht⟩ := h.ends
  have hstays : ∀ j, 1 ≤ j → j ≤ n → ∃ v, runFor j s = .next v ∧ v.st ≠ .idle := by
    intro j h1 hj
    rcases Nat.lt_or_ge k j with hkj | hjk
    · obtain ⟨v, hv, hd⟩ := hdone j hkj hj
      exact ⟨v, hv, by simp [hd]⟩
    · obtain ⟨v, hv, hb⟩ := hbusy j h1 hjk
      exact ⟨v, hv, fun hs => not_busy_of_idle hs hb⟩
  have hall : ∀ j, 1 ≤ j → j ≤ n → ∃ u, runFor j s = .next u ∧ P u := by
    intro j h1 hj
    induction j, h1 using Nat.le_induction with
    | base =>
      obtain ⟨rest, hag⟩ := h.next
      have hstart : runFor 1 s = .next (s.begin.setAgenda rest) := by
        rw [eq_setAgenda hag]
        exact runFor_succ (step_start h.ready.notBusy h.ready.held)
      exact ⟨_, hstart, start rest⟩
    | succ j h1 ih =>
      obtain ⟨u, hu, hP⟩ := ih (by omega)
      obtain ⟨v, hv, hst⟩ := hstays (j + 1) (by omega) hj
      obtain ⟨u', hu', hstep⟩ := runFor_last hv
      cases hu.symm.trans hu'
      refine ⟨v, hv, ?_⟩
      rcases Nat.lt_or_ge k j with hkj | hjk
      · obtain ⟨u', hu', hdu⟩ := hdone j hkj (by omega)
        obtain ⟨v', hv', hdv⟩ := hdone (j + 1) (by omega) hj
        cases hu.symm.trans hu'
        cases hv.symm.trans hv'
        exact done u v hdu hdv hstep hP
      · obtain ⟨u', hu', hf, -⟩ := inFlight_of_busy_run h.ready h.next hbusy h1 hjk
        cases hu.symm.trans hu'
        exact inFlight u v hf (fun hr => hst (step_st_of_reset hr hstep)) hstep hP
  obtain ⟨v, hv, hP⟩ := hall n (by omega) le_rfl
  cases hv.symm.trans ht
  exact hP

/-- A step of either agent on an operation in flight writes nothing past the result. -/
theorem InFlight.step_outKeptPast (h : InFlight s m) (hr : ¬ hostNext s .reset) (ht : step s = .next t) :
    OutKeptPast s t := by
  rcases step_effect_busy h.isBusy hr ht with ⟨rest, hx⟩ | ⟨l, r, d, rfl⟩
  · have h' : InFlight (s.setAgenda rest) m := h.beside rest s.replies s.draws
    exact h'.outKeptPast (h'.codecStep hx)
  · exact .of_eq rfl rfl

/-- A whole operation leaves `OUT` past its result alone, whatever turns the host takes (R36). -/
theorem OperationRun.outKeptPast (h : OperationRun s m t) : OutKeptPast s.begin t :=
  h.induction (fun _ => .of_eq rfl rfl) (fun _ _ hf hr hstep hP => hP.trans (hf.step_outKeptPast hr hstep))
    fun _ _ hdu hdv hstep hP => by
      obtain ⟨-, hlen, hmem⟩ := step_done_keeps_result hdu hdv hstep
      exact hP.trans (.of_eq hlen hmem)

/-! ## A whole encode -/

theorem fetchCommand_of_encode {i : Instr} (h : s.cmd = encode i) : fetchCommand s = i := by
  rw [fetchCommand, h, decodeCmd_encode]

theorem opIsDecode_eq_false_of_encode {i : Instr} (hi : i = .enc32 ∨ i = .enc32hex) (h : s.cmd = encode i) :
    opIsDecode s = false := by
  rw [opIsDecode_of_encode h]
  rcases hi with rfl | rfl <;> rfl

/-- Settles O35: alone, every group's step and `ENC.END` with their frames composed; with the host, the result every operation of the
command has (R21), and what every operation leaves alone. -/
theorem encodeOperationGivesTheText : Obligations.EncodeOperationGivesTheText := by
  refine ⟨fun i s m hi hc h => ?alone, fun i s t m hi hc hrun => ?withHost⟩
  case alone =>
    obtain ⟨t, hafter, -, hend⟩ := h.runFor_encode (opIsDecode_eq_false_of_encode hi hc)
    obtain ⟨-, hu⟩ := hafter.inFlight.encodeUnderway hafter.isEncode
    have hcmd : fetchCommand t = i := fetchCommand_of_encode (hafter.frame.cmd.trans hc)
    have hres := hu.holdsResult hafter.inFlight.held hafter.inFlight.errClear hafter.isEncode hafter.rp_eq_inLen
    rw [hcmd, commandResult_encode hi] at hres
    obtain ⟨herr, hlen, hout⟩ := hres
    rw [message_length h.held] at hend hlen
    have hframe := hafter.frame
    exact ⟨t.finish, hend, rfl, herr, hlen, hout, fun a ha => hframe.outMem a (.inr ha),
      hafter.rp_eq_inLen.trans hframe.inLen, hu.dlenClear, hframe.cmd, hframe.inLen, hframe.inMem, hframe.agenda,
      hframe.replies, hframe.draws, hframe.caps⟩
  case withHost =>
    have hres := hrun.holdsResult
    rw [fetchCommand_of_encode hc, commandResult_encode hi] at hres
    obtain ⟨herr, hlen, hout⟩ := hres
    refine ⟨herr, hlen, hout, fun a ha => ?_⟩
    obtain ⟨-, hkept⟩ := hrun.outKeptPast a ha
    exact hkept

end Sys2Proof.Machine
end

section
/-! SUPPORT. The decoder family (41_decoder.md): the reverse mapping (R82, R83), the trailing run and the data portion (R84), the
validator, whole and block by block (R85, R86, R88). -/

namespace Sys2Proof.Machine

/-! ## The reverse mapping -/

/-- Every symbol of the alphabet is printed for some index (R52). -/
theorem exists_romEnc_of_mem {α : Alphabet} {c : Byte} (h : c ∈ symbolsOf α) : ∃ i, romEnc α i = c := by
  obtain ⟨n, hn, rfl⟩ := List.mem_iff_getElem.1 h
  have hlt : n < 2 ^ 5 := by rwa [symbolsOf_length] at hn
  refine ⟨BitVec.ofNat 5 n, ?_⟩
  rw [romEnc, BitVec.toNat_ofNat, Nat.mod_eq_of_lt hlt, List.getD_eq_getElem _ _ hn]

theorem romDec_eq_none_iff {α : Alphabet} {c : Byte} : romDec α c = none ↔ c ∉ symbolsOf α := by
  rw [← romDec_isSome_iff, Option.not_isSome_iff_eq_none]

/-- `ROM_DEC` is the inverse of `ROM_ENC` (R55, R82). -/
theorem romDec_eq_some_iff {α : Alphabet} {c : Byte} {i : Index} : romDec α c = some i ↔ romEnc α i = c := by
  constructor
  · intro h
    obtain ⟨j, rfl⟩ := exists_romEnc_of_mem (romDec_isSome_iff.1 (Option.isSome_of_mem h))
    cases (romDec_romEnc α j).symm.trans h
    rfl
  · rintro rfl
    exact romDec_romEnc α i

/-- Settles O20: the mapping inverts the table on the indices, and every symbol is an index's. -/
theorem reverseMappingInvertsAlphabet : Obligations.ReverseMappingInvertsAlphabet :=
  fun α => ⟨romDec_romEnc α, fun _ _ => romDec_eq_some_iff, romDec_padOctet α⟩

/-- The symbols of both alphabets stand below the lower-case letters (R53). -/
theorem toNat_lt_of_mem_symbolsOf {α : Alphabet} : ∀ c ∈ symbolsOf α, c.toNat < 0x61 := by
  cases α <;> decide

theorem romDec_eq_none_of_le {α : Alphabet} {c : Byte} (h : 0x61 ≤ c.toNat) : romDec α c = none :=
  romDec_eq_none_iff.2 fun hc => (toNat_lt_of_mem_symbolsOf c hc).not_ge h

/-- Settles O21: no symbol stands at or above the lower-case letters, and the octets named are looked up in the tables. -/
theorem matchingIsCaseSensitiveAndExact : Obligations.MatchingIsCaseSensitiveAndExact :=
  ⟨fun _ _ h _ => romDec_eq_none_of_le h, fun _ _ h => romDec_eq_none_of_le (by omega), by decide, by decide,
    fun _ _ => romDec_isSome_iff, by decide, by decide⟩

/-! ## The trailing run -/

theorem rtakeWhile_padOctet (t : List Byte) :
    t.rtakeWhile (· == padOctet) = List.replicate (trailingRun t) padOctet :=
  List.eq_replicate_iff.2 ⟨List.length_reverse, fun _ hc => eq_of_beq (List.mem_rtakeWhile_imp (p := (· == padOctet)) hc)⟩

theorem dataPortion_eq_rdropWhile (t : List Byte) : dataPortion t = t.rdropWhile (· == padOctet) := by
  have hsplit : t.rdropWhile (· == padOctet) ++ List.replicate (trailingRun t) padOctet = t := by
    rw [← rtakeWhile_padOctet, List.rdropWhile_append_rtakeWhile]
  have hlen : dataLength t = (t.rdropWhile (· == padOctet)).length := by
    rw [dataLength, ← congrArg List.length hsplit, List.length_append, List.length_replicate, Nat.add_sub_cancel]
  rw [dataPortion, hlen]
  exact (congrArg (List.take _) hsplit.symm).trans (List.take_left' rfl)

/-- A text is its data portion, then its trailing run (R84). -/
theorem dataPortion_append_run (t : List Byte) :
    dataPortion t ++ List.replicate (trailingRun t) padOctet = t := by
  rw [dataPortion_eq_rdropWhile, ← rtakeWhile_padOctet, List.rdropWhile_append_rtakeWhile]

theorem drop_dataLength (t : List Byte) : t.drop (dataLength t) = List.replicate (trailingRun t) padOctet :=
  (congrArg (List.drop _) (dataPortion_append_run t).symm).trans (List.drop_left' (dataPortion_length t))

theorem dataLength_add_trailingRun (t : List Byte) : dataLength t + trailingRun t = t.length := by
  rw [← dataPortion_length, ← congrArg List.length (dataPortion_append_run t), List.length_append, List.length_replicate]

/-- What stands before the trailing run is no padding (R84). -/
theorem getElem?_dataLength_sub_one {t : List Byte} (h : 0 < dataLength t) : t[dataLength t - 1]? ≠ some padOctet := by
  have hlast : t[dataLength t - 1]? = (dataPortion t).getLast? := by
    rw [List.getLast?_eq_getElem?, dataPortion_length, dataPortion, List.getElem?_take_of_lt (by omega)]
  rw [hlast, dataPortion_eq_rdropWhile]
  intro hpad
  obtain ⟨hne, hpad⟩ := List.mem_getLast?_eq_getLast hpad
  exact List.rdropWhile_last_not (· == padOctet) t hne (beq_iff_eq.2 hpad.symm)

/-- The trailing run ends at the last octet that is no padding (R84). -/
theorem trailingRun_append_cons (x : List Byte) {c : Byte} (hc : c ≠ padOctet) (p : Nat) :
    trailingRun (x ++ c :: List.replicate p padOctet) = p := by
  simp [trailingRun, List.takeWhile_append_of_pos, hc]

/-- Settles O22: the text is its data portion, whose last octet is no padding, then the run. -/
theorem trailingRunIsTheLargest : Obligations.TrailingRunIsTheLargest := by
  intro t
  have hlen := dataLength_add_trailingRun t
  refine ⟨by omega, fun c hc => ?run, fun p hp hpad => ?largest, rfl, getElem?_dataLength_sub_one⟩
  case run =>
    exact List.eq_of_mem_replicate (drop_dataLength t ▸ hc)
  case largest =>
    by_contra hlt
    refine getElem?_dataLength_sub_one (t := t) (by omega) ?_
    have hin : dataLength t - 1 < t.length := by omega
    rw [List.getElem?_eq_getElem hin, hpad t[dataLength t - 1]]
    exact List.mem_drop_iff_getElem.2 ⟨p - trailingRun t - 1, by omega, by congr 1; omega⟩

/-! ## The validator -/

theorem accepted_iff {r p : Nat} :
    accepted r p = true ↔
      (r, p) ∈ ([(0, 0), (2, 6), (2, 0), (4, 4), (4, 0), (5, 3), (5, 0), (7, 1), (7, 0)] : List (Nat × Nat)) := by
  simp only [accepted, Bool.or_eq_true, Bool.and_eq_true, beq_iff_eq, List.mem_cons, Prod.mk.injEq, List.not_mem_nil,
    or_false, and_or_left, or_assoc]

/-- The rows of R59's table, each with its padding or without. -/
theorem accepted_cases {r p : Nat} (h : accepted r p = true) :
    (r = 0 ∧ p = 0) ∨ (r = 2 ∧ (p = 6 ∨ p = 0)) ∨ (r = 4 ∧ (p = 4 ∨ p = 0)) ∨ (r = 5 ∧ (p = 3 ∨ p = 0)) ∨
      (r = 7 ∧ (p = 1 ∨ p = 0)) := by
  simpa [accepted, or_assoc] using h

/-- Padding is optional (R59). -/
theorem accepted_zero {r p : Nat} (h : accepted r p = true) : accepted r 0 = true := by
  rcases accepted_cases h with ⟨rfl, -⟩ | ⟨rfl, -⟩ | ⟨rfl, -⟩ | ⟨rfl, -⟩ | ⟨rfl, -⟩ <;> rfl

/-- The character validator, octet by octet (R85). -/
theorem allSymbols_dataPortion_iff {α : Alphabet} {t : List Byte} :
    allSymbols α (dataPortion t) = true ↔ ∀ a, a < dataLength t → ∃ c i, t[a]? = some c ∧ romDec α c = some i := by
  have hget : ∀ a (h : a < (dataPortion t).length), t[a]? = some (dataPortion t)[a] := fun a h => by
    rw [← List.getElem?_eq_getElem h, dataPortion, List.getElem?_take_of_lt (by rwa [dataPortion_length] at h)]
  rw [allSymbols, List.all_eq_true, List.forall_mem_iff_getElem]
  simp only [dataPortion_length, Option.isSome_iff_exists]
  refine forall₂_congr fun a ha => ?_
  simp [hget a (by rwa [dataPortion_length])]

/-- Settles O23, check by check. -/
theorem validatorAcceptsNinePairsOfSymbols : Obligations.ValidatorAcceptsNinePairsOfSymbols := fun α t => by
  rw [validText, Bool.and_eq_true, allSymbols_dataPortion_iff, accepted_iff]

/-- An accepted text is symbols, then padding, in an accepted pair of lengths (R85, R86). -/
theorem validText_iff {α : Alphabet} {t : List Byte} :
    validText α t = true ↔ ∃ d p, SymbolsThenPadding α t d p ∧ accepted (d.length % 8) p = true := by
  constructor
  · intro h
    rw [validText, Bool.and_eq_true, allSymbols_iff] at h
    obtain ⟨hsym, hacc⟩ := h
    exact ⟨dataPortion t, trailingRun t, ⟨(dataPortion_append_run t).symm, hsym⟩, by rwa [dataPortion_length]⟩
  · rintro ⟨d, p, hshape, hacc⟩
    rwa [hshape.validText_eq]

/-! ## Block by block -/

/-- Induction over the blocks of a text, the first block first; the last can be short (R88, R94). -/
theorem block_induction {P : List Byte → Prop} (last : ∀ x, x.length ≤ 8 → P x)
    (block : ∀ b x, b.length = 8 → x ≠ [] → P x → P (b ++ x)) (t : List Byte) : P t := by
  induction hn : t.length using Nat.strong_induction_on generalizing t with
  | _ n ih =>
    rcases Nat.lt_or_ge 8 t.length with h | h
    · have hdrop : (t.drop 8).length = t.length - 8 := List.length_drop
      rw [← List.take_append_drop 8 t]
      exact block _ _ (List.length_take_of_le h.le) (List.ne_nil_of_length_pos (by omega)) (ih _ (by omega) _ rfl)
    · exact last t h

/-- The first block and the rest of a text of more than one block (R32). -/
theorem cuts_eight_append {b x : List Byte} (hb : b.length = 8) : cuts 8 (b ++ x) = b :: cuts 8 x := by
  rw [cuts_append 8 (by decide) b x (by rw [hb]), cuts_single 8 (by decide) b (List.ne_nil_of_length_pos (by omega)) hb.le]
  rfl

/-- A block with more text after it holds no padding in an accepted text (R86, R88). -/
theorem validText_append {α : Alphabet} {b x : List Byte} (hb : b.length = 8) (hx : x ≠ []) :
    validText α (b ++ x) = (allSymbols α b && validText α x) := by
  have hmod : ∀ e : List Byte, (b ++ e).length % 8 = e.length % 8 := fun e => by
    rw [List.length_append, hb, Nat.add_mod_left]
  rw [Bool.eq_iff_iff, Bool.and_eq_true, validText_iff, validText_iff, allSymbols_iff]
  constructor
  · rintro ⟨d, p, hshape, hacc⟩
    have hle : b.length ≤ d.length := by
      have hpos := List.length_pos_iff.2 hx
      have hlen := hshape.length_eq
      have hrow := accepted_cases hacc
      rw [List.length_append] at hlen
      omega
    obtain ⟨htext, hsym⟩ := hshape
    obtain ⟨e, rfl⟩ := List.prefix_of_prefix_length_le (List.prefix_append b x) (htext ▸ List.prefix_append d _) hle
    rw [List.append_assoc] at htext
    rw [List.forall_mem_append] at hsym
    obtain ⟨hfirst, hrest⟩ := hsym
    exact ⟨hfirst, e, p, ⟨List.append_cancel_left htext, hrest⟩, hmod e ▸ hacc⟩
  · rintro ⟨hsym, d, p, hshape, hacc⟩
    have hfirst : SymbolsThenPadding α b b 0 := ⟨by simp, hsym⟩
    exact ⟨b ++ d, p, hfirst.append hshape, (hmod d).symm ▸ hacc⟩

/-- On a text of one block the nine pairs are R88's (R86, R88). -/
theorem accepted_eq_contains {d p : Nat} (hpos : 0 < d + p) (hle : d + p ≤ 8) :
    accepted (d % 8) p = finalBlockPairs.contains (d, p) := by
  have hall : ∀ d ≤ 8, ∀ p ≤ 8, 0 < d + p → d + p ≤ 8 →
      accepted (d % 8) p = finalBlockPairs.contains (d, p) := by decide
  exact hall d (by omega) p (by omega) hpos hle

theorem validText_of_one_block (α : Alphabet) {x : List Byte} (hne : x ≠ []) (hle : x.length ≤ 8) :
    validText α x = finalBlockValid α x := by
  have hpos := List.length_pos_iff.2 hne
  rw [← dataLength_add_trailingRun] at hpos hle
  rw [validText, finalBlockValid, accepted_eq_contains hpos hle]

theorem blocksValid_cons (α : Alphabet) (b : List Byte) {bs : List (List Byte)} (h : bs ≠ []) :
    blocksValid α (b :: bs) = (allSymbols α b && blocksValid α bs) := by
  obtain ⟨c, cs, rfl⟩ := List.exists_cons_of_ne_nil h
  rfl

/-- Settles O24, block by block: a block with more text after it, and the last block. -/
theorem blockwiseValidationAgrees : Obligations.BlockwiseValidationAgrees := by
  intro α t
  rw [validBlockwise]
  induction t using block_induction with
  | last x hle =>
    rcases eq_or_ne x [] with rfl | hne
    · rfl
    · rw [cuts_single 8 (by decide) x hne hle]
      exact validText_of_one_block α hne hle
  | block b x hb hx ih =>
    have hcuts : cuts 8 x ≠ [] := by rw [cuts_cons 8 (by decide) x hx]; exact List.cons_ne_nil _ _
    rw [validText_append hb hx, ih, cuts_eight_append hb, blocksValid_cons α b hcuts]

end Sys2Proof.Machine
end

section
/-! SUPPORT. The decoder family (41_decoder.md): a block's bytes (R90 to R93), the whole decode with its length (R89, R94, R95), and
the round trip (R102, R103). -/

namespace Sys2Proof.Machine

/-! ## A block's buffer and bytes -/

/-- Bit `r` of index lane `7 - q` of the group buffer is its bit `5q + r` (R50, R90). -/
theorem decBuf_getLsbD (l : List Index) {q r : Nat} (hq : q < 8) (hr : r < 5) :
    (decBuf l).getLsbD (5 * q + r) = (l.getD (7 - q) 0).getLsbD r := by
  have habove : ∀ k, 5 ≤ k → ¬ r + k < 5 := fun k hk => by omega
  simp only [decBuf, bufOfIndices, BitVec.getLsbD_append]
  interval_cases q <;> simp [hr, habove, Nat.add_comm _ r]

/-- The first `n` bytes are the upper `8n` bits (R91). -/
theorem firstBytes_congr {B C : GroupBuf} {n : Nat} (hn : n ≤ 5)
    (h : ∀ b, 40 - 8 * n ≤ b → b < 40 → B.getLsbD b = C.getLsbD b) : firstBytes B n = firstBytes C n := by
  refine List.map_congr_left fun k hk => BitVec.eq_of_getLsbD_eq fun b hb => ?_
  have hk := List.mem_range.1 hk
  rw [byteLane, byteLane, BitVec.getLsbD_extractLsb', BitVec.getLsbD_extractLsb', h _ (by omega) (by omega)]

/-- The bytes of a group's buffer are the group (R65, R91). -/
theorem firstBytes_encBuf {g : List Byte} (hg : g.length ≤ 5) : firstBytes (encBuf g) g.length = g := by
  refine List.ext_getElem (firstBytes_length _ _) fun k hk hkg => ?_
  simp only [firstBytes, List.getElem_map, List.getElem_range]
  rw [byteLane_encBuf g (by omega), List.getD_eq_getElem g 0 hkg]

/-- The first `m` index lanes of a buffer are its upper `5m` bits (R66, R90). -/
theorem decBuf_encIdx_getLsbD (B : GroupBuf) {m b : Nat} (hm : 40 - 5 * m ≤ b) (hb : b < 40) :
    (decBuf ((List.range m).map (encIdx B))).getLsbD b = B.getLsbD b := by
  have hlane : ((List.range m).map (encIdx B)).getD (7 - b / 5) 0 = encIdx B (7 - b / 5) := by
    rw [List.getD_eq_getElem _ _ (by simp; omega), List.getElem_map, List.getElem_range]
  conv_lhs => rw [← Nat.div_add_mod b 5]
  rw [decBuf_getLsbD _ (by omega) (Nat.mod_lt _ (by decide)), hlane, encIdx, indexLane, BitVec.getLsbD_extractLsb',
    decide_eq_true (Nat.mod_lt _ (by decide)), Bool.true_and]
  congr 1
  omega

/-! ## The characters of a block -/

/-- Symbols printed for indices have those indices (R82). -/
theorem indicesOf_map_romEnc (α : Alphabet) (l : List Index) : indicesOf α (l.map (romEnc α)) = some l := by
  induction l with
  | nil => rfl
  | cons i is ih => simp [indicesOf, romDec_romEnc, ih]

theorem indicesOf_concat (α : Alphabet) (x : List Byte) (i : Index) :
    indicesOf α (x ++ [romEnc α i]) = (indicesOf α x).map (· ++ [i]) := by
  induction x with
  | nil => simp [indicesOf, romDec_romEnc]
  | cons c cs ih =>
    simp only [List.cons_append, indicesOf, ih]
    cases romDec α c <;> cases indicesOf α cs <;> rfl

theorem allSymbols_append (α : Alphabet) (x y : List Byte) :
    allSymbols α (x ++ y) = (allSymbols α x && allSymbols α y) := List.all_append

/-! ## How many bytes -/

/-- The table `NBYTES` (R59, R89). -/
theorem nBytes_cases {r n : Nat} (h : nBytes r = some n) :
    (r = 0 ∧ n = 0) ∨ (r = 2 ∧ n = 1) ∨ (r = 4 ∧ n = 2) ∨ (r = 5 ∧ n = 3) ∨ (r = 7 ∧ n = 4) := by
  unfold nBytes at h
  split at h <;> cases h <;> decide

/-- `NBYTES` is the inverse of `NDATA` on the groups a short final block can hold (R89). -/
theorem nBytes_eq_some_iff {r n : Nat} (hn : 0 < n) : nBytes r = some n ↔ n < 5 ∧ nData n = r := by
  constructor
  · intro h
    have hrow := nBytes_cases h
    rw [nData, ceilDiv_five]
    omega
  · rintro ⟨hlt, rfl⟩
    interval_cases n <;> rfl

theorem exists_nBytes_of_accepted {r p : Nat} (h : accepted r p = true) : ∃ n, nBytes r = some n := by
  rcases accepted_cases h with ⟨rfl, -⟩ | ⟨rfl, -⟩ | ⟨rfl, -⟩ | ⟨rfl, -⟩ | ⟨rfl, -⟩ <;> exact ⟨_, rfl⟩

theorem blockBytes_nData {n : Nat} (h1 : 1 ≤ n) (h5 : n ≤ 5) : blockBytes (nData n) = some n := by
  interval_cases n <;> rfl

theorem blockBytes_of_lt {d : Nat} (h1 : 1 ≤ d) (h8 : d < 8) : blockBytes d = nBytes d := by
  rw [blockBytes, if_neg h8.ne, if_neg (by omega)]

/-- The bytes of a data portion of one block (R89, R91). -/
theorem blockBytes_of_nBytes {d n : Nat} (h1 : 1 ≤ d) (h8 : d ≤ 8) (h : nBytes (d % 8) = some n) :
    blockBytes d = some (5 * (d / 8) + n) := by
  rcases h8.eq_or_lt with rfl | hlt
  · cases h
    rfl
  · rw [Nat.mod_eq_of_lt hlt] at h
    rw [blockBytes_of_lt h1 hlt, h, Nat.div_eq_of_lt hlt, Nat.mul_zero, Nat.zero_add]

/-- A block and the blocks after it (R94). -/
theorem decBlocks_cons {α : Alphabet} {b x : List Byte} {bs : List (List Byte)} {y : List Byte}
    (hb : decBlock α b = some x) (hbs : decBlocks α bs = some y) : decBlocks α (b :: bs) = some (x ++ y) := by
  rw [decBlocks, hb, hbs]

theorem decBlocks_singleton {α : Alphabet} {b x : List Byte} (hb : decBlock α b = some x) :
    decBlocks α [b] = some x := by
  simpa using decBlocks_cons hb (bs := []) rfl

/-- Symbols in an accepted number decode, to as many bytes as R89 says. -/
theorem exists_decBlocks {α : Alphabet} {d : List Byte} {n : Nat} (hsym : allSymbols α d = true)
    (hn : nBytes (d.length % 8) = some n) :
    ∃ b, decBlocks α (cuts 8 d) = some b ∧ b.length = 5 * (d.length / 8) + n := by
  induction d using block_induction with
  | last x hle =>
    rcases eq_or_ne x [] with rfl | hne
    · cases hn
      exact ⟨[], rfl, rfl⟩
    · obtain ⟨b, hb, hlen⟩ := decBlock_eq_some hsym (blockBytes_of_nBytes (List.length_pos_iff.2 hne) hle hn)
      rw [cuts_single 8 (by decide) x hne hle]
      exact ⟨b, decBlocks_singleton hb, hlen⟩
  | block x d hx hd ih =>
    rw [allSymbols_append, Bool.and_eq_true] at hsym
    obtain ⟨hxsym, hdsym⟩ := hsym
    rw [List.length_append, hx, Nat.add_mod_left] at hn
    obtain ⟨b, hb, hblen⟩ := decBlock_eq_some hxsym (n := 5) (by rw [hx]; rfl)
    obtain ⟨c, hc, hclen⟩ := ih hdsym hn
    refine ⟨b ++ c, cuts_eight_append hx ▸ decBlocks_cons hb hc, ?_⟩
    rw [List.length_append, List.length_append, hx]
    omega

/-! ## The whole decode -/

/-- An accepted text decodes, to as many bytes as its data portion says (R89, R94). -/
theorem exists_decodeMessage {α : Alphabet} {t : List Byte} (h : validText α t = true) :
    ∃ b n, decodeMessage α t = some b ∧ nBytes (dataLength t % 8) = some n ∧ b.length = 5 * (dataLength t / 8) + n := by
  obtain ⟨d, p, hshape, hacc⟩ := validText_iff.1 h
  obtain ⟨n, hn⟩ := exists_nBytes_of_accepted hacc
  obtain ⟨b, hb, hlen⟩ := exists_decBlocks (allSymbols_iff.2 hshape.symbols) hn
  rw [decodeMessage, if_pos h, hshape.dataPortion_eq, hshape.dataLength_eq]
  exact ⟨b, n, hb, hn, hlen⟩

theorem decodeMessage_eq_none_iff {α : Alphabet} {t : List Byte} : decodeMessage α t = none ↔ validText α t = false := by
  constructor
  · intro h
    cases hv : validText α t with
    | false => rfl
    | true =>
      obtain ⟨b, n, hb, -⟩ := exists_decodeMessage hv
      cases h.symm.trans hb
  · intro hv
    simp [decodeMessage, hv]

theorem validText_of_decodeMessage {α : Alphabet} {t b : List Byte} (h : decodeMessage α t = some b) :
    validText α t = true := by
  cases hv : validText α t with
  | true => rfl
  | false => cases h.symm.trans (decodeMessage_eq_none_iff.2 hv)

/-- Settles O25: every accepted text decodes. -/
theorem decodeFailsExactlyWhenValidationFails : Obligations.DecodeFailsExactlyWhenValidationFails :=
  fun _ _ => decodeMessage_eq_none_iff

theorem decodeMessage_length {α : Alphabet} {t b : List Byte} (h : decodeMessage α t = some b) :
    ∃ n, nBytes (dataLength t % 8) = some n ∧ b.length = 5 * (dataLength t / 8) + n := by
  obtain ⟨c, n, hc, hn, hlen⟩ := exists_decodeMessage (validText_of_decodeMessage h)
  cases h.symm.trans hc
  exact ⟨n, hn, hlen⟩

/-- Settles O26: the table's rows, and the sum over the blocks, whose closed form each row agrees with. -/
theorem decodedLengthFollowsDataLength : Obligations.DecodedLengthFollowsDataLength := by
  refine ⟨⟨rfl, rfl, rfl, rfl, rfl⟩, fun r n => nBytes_eq_some_iff, fun α t b h => ?_⟩
  obtain ⟨n, hn, hlen⟩ := decodeMessage_length h
  have hrow := nBytes_cases hn
  exact ⟨by omega, n, hn, hlen⟩

/-- No text is all padding and accepted (R86, R95). -/
theorem dataLength_eq_zero_iff {α : Alphabet} {t : List Byte} (h : validText α t = true) : dataLength t = 0 ↔ t = [] := by
  constructor
  · intro hd
    rw [validText, Bool.and_eq_true, hd] at h
    obtain ⟨-, hacc⟩ := h
    have hrow := accepted_cases hacc
    rw [← List.length_eq_zero_iff, ← dataLength_add_trailingRun]
    omega
  · rintro rfl
    rfl

/-- Settles O29: an accepted text that is not empty has data, and R89 gives data bytes; a payload that is not empty has a group. -/
theorem onlyEmptyInputGivesEmptyResult : Obligations.OnlyEmptyInputGivesEmptyResult := by
  refine ⟨fun α t => ⟨fun h => ?_, ?_⟩, fun α m => ⟨fun h => ?_, ?_⟩⟩
  · obtain ⟨n, hn, hlen⟩ := decodeMessage_length h
    have hrow := nBytes_cases hn
    rw [List.length_nil] at hlen
    exact (dataLength_eq_zero_iff (validText_of_decodeMessage h)).1 (by omega)
  · rintro rfl
    rfl
  · have hlen := congrArg List.length h
    rw [encodeMessage_length_eq, ceilDiv_five, List.length_nil] at hlen
    exact List.length_eq_zero_iff.1 (by omega)
  · rintro rfl
    exact encodeMessage_nil α

/-! ## The round trip -/

/-- The symbols of a group decode to the group (R92, R102). -/
theorem decBlock_groupSymbols (α : Alphabet) {g : List Byte} (h1 : 1 ≤ g.length) (h5 : g.length ≤ 5) :
    decBlock α (groupSymbols α g) = some g := by
  have hindices : indicesOf α (groupSymbols α g) = some ((List.range (nData g.length)).map (encIdx (encBuf g))) := by
    rw [← indicesOf_map_romEnc α, List.map_map]
    rfl
  have hbytes : firstBytes (decBuf ((List.range (nData g.length)).map (encIdx (encBuf g)))) g.length = g := by
    refine (firstBytes_congr h5 fun b hb hlt => decBuf_encIdx_getLsbD _ ?_ hlt).trans (firstBytes_encBuf h5)
    rw [nData, ceilDiv_five]
    omega
  simp only [decBlock, hindices, groupSymbols_length, blockBytes_nData h1 h5, hbytes]

/-- A group of 5 bytes needs no padding (R68). -/
theorem encGroup_full (α : Alphabet) {g : List Byte} (hg : g.length = 5) :
    SymbolsThenPadding α (encGroup α g) (groupSymbols α g) 0 := by
  have hpad : nPad g.length = 0 := by rw [hg]; rfl
  exact hpad ▸ encGroup_shape α hg.le

/-- Settles O27: a block of 8 yields 5 bytes, and a group's symbols, all of the text of a full one, decode to it. -/
theorem blockDecodesToItsGroup : Obligations.BlockDecodesToItsGroup := by
  refine ⟨fun α x b hx hb => ?_, fun α g hg => ?_, fun α g h1 h5 => ?_⟩
  · have hlen := decBlock_length hb
    rw [hx] at hlen
    exact (Option.some.inj hlen).symm
  · have htext := (encGroup_full α hg).text
    rw [List.replicate_zero, List.append_nil] at htext
    rw [htext, decBlock_groupSymbols α (by omega) hg.le]
  · rw [(encGroup_shape α h5).text, List.take_left' (groupSymbols_length α g), decBlock_groupSymbols α h1 h5]

/-- The data portion of a payload's text decodes to the payload, group by group (R102). -/
theorem decBlocks_dataPortion_encodeMessage (α : Alphabet) (m : List Byte) :
    decBlocks α (cuts 8 (dataPortion (encodeMessage α m))) = some m := by
  induction m using group_induction with
  | short m hm =>
    rcases eq_or_ne m [] with rfl | hne
    · rw [encodeMessage_nil]
      rfl
    · have hpos := List.length_pos_iff.2 hne
      have hlen := groupSymbols_length α m
      rw [nData, ceilDiv_five] at hlen
      rw [encodeMessage_of_group α hne hm.le, (encGroup_shape α hm.le).dataPortion_eq,
        cuts_single 8 (by decide) _ (List.ne_nil_of_length_pos (by omega)) (by omega)]
      exact decBlocks_singleton (decBlock_groupSymbols α hpos hm.le)
  | group g m hg ih =>
    obtain ⟨d, p, hshape, -⟩ := encodeMessage_shape α m
    rw [hshape.dataPortion_eq] at ih
    rw [encodeMessage_append α (by rw [hg]), encodeMessage_of_group α (List.ne_nil_of_length_pos (by omega)) hg.le,
      ((encGroup_full α hg).append hshape).dataPortion_eq, cuts_eight_append (by rw [groupSymbols_length, hg]; rfl)]
    exact decBlocks_cons (decBlock_groupSymbols α (by omega) hg.le) ih

/-- Settles O30: the text is accepted (R77), and its data portion decodes to the payload. -/
theorem decodeOfEncodeIsThePayload : Obligations.DecodeOfEncodeIsThePayload := by
  intro α b
  obtain ⟨d, p, -, -, -, -, hvalid, -⟩ := encodedTextIsWellFormed α b
  rw [decodeMessage, if_pos hvalid, decBlocks_dataPortion_encodeMessage]

/-- Padding is optional: an accepted text decodes as its stripped form (R103). -/
theorem decodeMessage_dataPortion {α : Alphabet} {t b : List Byte} (h : decodeMessage α t = some b) :
    decodeMessage α (dataPortion t) = some b := by
  have hv := validText_of_decodeMessage h
  rw [decodeMessage, if_pos hv] at h
  obtain ⟨d, p, hshape, hacc⟩ := validText_iff.1 hv
  rw [hshape.dataPortion_eq] at h ⊢
  have hvd : validText α d = true := hshape.stripped.validText_eq.trans (accepted_zero hacc)
  rw [decodeMessage, if_pos hvd, hshape.stripped.dataPortion_eq, h]

/-- Settles O31: the round trip, stripped. -/
theorem decodeOfStrippedTextIsThePayload : Obligations.DecodeOfStrippedTextIsThePayload :=
  ⟨fun α b => decodeMessage_dataPortion (decodeOfEncodeIsThePayload α b), fun _ _ _ => decodeMessage_dataPortion⟩

/-! ## The dropped bits -/

/-- A short last block, its last character printed for the index `i` (R90, R91). -/
theorem decBlock_concat (α : Alphabet) {x : List Byte} {n : Nat} (hn : nBytes (x.length + 1) = some n) (i : Index) :
    decBlock α (x ++ [romEnc α i]) = (indicesOf α x).map fun l => firstBytes (decBuf (l ++ [i])) n := by
  have hrow := nBytes_cases hn
  have hlen : blockBytes (x ++ [romEnc α i]).length = some n := by
    rw [List.length_append, List.length_singleton, blockBytes_of_lt (by omega) (by omega), hn]
  rw [decBlock, indicesOf_concat, hlen]
  cases indicesOf α x <;> rfl

/-- Two last indices that agree from bit `k` up give buffers that agree from there up (R90). -/
theorem decBuf_concat_getLsbD {l : List Index} {i j : Index} {k b : Nat} (hl : l.length ≤ 7)
    (hij : ∀ r, k ≤ r → i.getLsbD r = j.getLsbD r) (hb : 5 * (7 - l.length) + k ≤ b) (hlt : b < 40) :
    (decBuf (l ++ [i])).getLsbD b = (decBuf (l ++ [j])).getLsbD b := by
  rw [← Nat.div_add_mod b 5, decBuf_getLsbD _ (by omega) (Nat.mod_lt _ (by decide)),
    decBuf_getLsbD _ (by omega) (Nat.mod_lt _ (by decide))]
  have hle : 7 - b / 5 ≤ l.length := by omega
  rcases hle.lt_or_eq with hbefore | hlast
  · rw [List.getD_append _ _ _ _ hbefore, List.getD_append _ _ _ _ hbefore]
  · rw [hlast, List.getD_append_right _ _ _ _ le_rfl, List.getD_append_right _ _ _ _ le_rfl, Nat.sub_self]
    exact hij _ (by omega)

/-- The quotient by `2^k` is the bits from `k` up. -/
theorem getLsbD_of_div_eq {i j : Index} {k : Nat} (h : i.toNat / 2 ^ k = j.toNat / 2 ^ k) {r : Nat} (hr : k ≤ r) :
    i.getLsbD r = j.getLsbD r := by
  obtain ⟨b, rfl⟩ := Nat.exists_eq_add_of_le hr
  have hbit : (i.toNat / 2 ^ k).testBit b = (j.toNat / 2 ^ k).testBit b := by rw [h]
  rwa [Nat.testBit_div_two_pow, Nat.testBit_div_two_pow, Nat.add_comm b k] at hbit

/-- The validator does not ask which symbol the last data character is (R85, R86). -/
theorem validText_append_romEnc (α : Alphabet) (x : List Byte) (i : Index) (p : Nat) :
    validText α (x ++ romEnc α i :: List.replicate p padOctet) =
      (allSymbols α x && accepted ((x.length + 1) % 8) p) := by
  have hrun := trailingRun_append_cons x (ne_padOctet_of_mem (romEnc_mem α i)) p
  have hlen : dataLength (x ++ romEnc α i :: List.replicate p padOctet) = x.length + 1 := by
    rw [dataLength, hrun, List.length_append, List.length_cons, List.length_replicate]
    omega
  have hdata : dataPortion (x ++ romEnc α i :: List.replicate p padOctet) = x ++ [romEnc α i] := by
    rw [dataPortion, hlen, List.append_cons]
    exact List.take_left' (by simp)
  have hlast : allSymbols α [romEnc α i] = true := by simp [allSymbols, romDec_romEnc]
  rw [validText, hdata, hlen, hrun, allSymbols_append, hlast, Bool.and_true]

/-- Settles O28: the bytes are the buffer's bits above the dropped ones; the verdict is the same for every last symbol. -/
theorem droppedBitsAreNotChecked : Obligations.DroppedBitsAreNotChecked := by
  refine ⟨fun α x i j n k hn hk hij => ?bytes, fun α x i j p => ?verdict, by decide, by decide⟩
  case bytes =>
    have hrow := nBytes_cases hn
    rw [decBlock_concat α hn, decBlock_concat α hn]
    refine Option.map_congr fun l hl => firstBytes_congr (by omega) fun b hb hlt => ?_
    have hlen := indicesOf_length (Option.mem_def.1 hl)
    exact decBuf_concat_getLsbD (by omega) (fun r => getLsbD_of_div_eq hij) (by omega) hlt
  case verdict => rw [validText_append_romEnc, validText_append_romEnc]

end Sys2Proof.Machine
end

section
/-! SUPPORT. The decoder family (41_decoder.md): the steps `DEC.CHECK`, `DEC.BLOCK` and `DEC.END` with their frame (R97 to R99). -/

namespace Sys2Proof.Machine

variable {s t : State} {m : List Byte} {α : Alphabet}

/-! ## The three steps -/

theorem decStep_accept (hs : s.st = .check) (hm : message s = some m) (hv : validText α m = true) :
    decStep α s = .next (s.acceptText (dataLength m)) := by
  rw [decStep_check hs, decCheckStep_of_message hm, if_pos hv]

theorem decStep_reject (hs : s.st = .check) (hm : message s = some m) (hv : validText α m = false) :
    decStep α s = .next s.invalidInput := by
  rw [decStep_check hs, decCheckStep_of_message hm, hv]
  rfl

/-- Settles O37: the validator's verdict decides between the two outcomes. -/
theorem decodeCheckStepAcceptsOrRaises : Obligations.DecodeCheckStepAcceptsOrRaises := by
  intro i s t hi hs hm
  rw [exec_decode hi]
  exact ⟨decStep_accept hs hm, decStep_reject hs hm⟩

/-- `DEC.BLOCK` on a block that can be read and decodes, with room for its bytes (R98). -/
theorem decBlockStep_next {x bytes : List Byte} (hle : s.rp + min 8 (s.dlen - s.rp) ≤ s.inLen)
    (hx : Memory.readRange s.inMem s.rp (min 8 (s.dlen - s.rp)) = some x) (hb : decBlock α x = some bytes)
    (hf : Capacities.fits s.caps.outCap (s.outLen + bytes.length) = true) :
    decBlockStep α s = .next (s.produce bytes (min 8 (s.dlen - s.rp))) := by
  rw [decBlockStep_append hle hx hb, memAppend_eq hf]

/-- A block's bytes are as many as its characters say (R91). -/
theorem blockBytes_of_readRange {x bytes : List Byte} {a n : Nat} (hx : Memory.readRange s.inMem a n = some x)
    (hb : decBlock α x = some bytes) : blockBytes n = some bytes.length := by
  rw [← Memory.readRange_length hx, decBlock_length hb]

/-- Settles O38: the step is an append at `OUT_LEN`. -/
theorem decodeBlockStepTakesOneBlock : Obligations.DecodeBlockStepTakesOneBlock := by
  intro i s x bytes hi hs hlt hle hx hb hf
  refine ⟨s.produce bytes (min 8 (s.dlen - s.rp)), ?_, rfl, rfl, blockBytes_of_readRange hx hb,
    Memory.read_writeRange_inside _ _ _, fun a => s.read_produce_outside _ _, rfl, rfl, rfl, rfl, rfl, rfl, rfl, rfl, rfl, rfl⟩
  rw [exec_decode hi, decStep_block hs hlt, decBlockStep_next (by omega) hx hb hf]

/-- Settles O39: the row of R18's table; after `DEC.CHECK` the lengths differ by the data, and only the empty text has none. -/
theorem decodeEndStepOnlySetsDone : Obligations.DecodeEndStepOnlySetsDone := by
  refine ⟨fun i s hi hs he => ?finish, fun i s t hi hs hrp hm hv => ?check, fun α t => dataLength_eq_zero_iff⟩
  case finish =>
    rw [exec_decode hi]
    exact decStep_end hs he
  case check =>
    have hzero := dataLength_eq_zero_iff hv
    refine ⟨s.acceptText (dataLength t), by rw [exec_decode hi, decStep_accept hs hm hv], rfl, ?_, fun ht => ?_, fun ht => ?_⟩
    · simp [hrp, eq_comm (a := 0), hzero]
    · rw [exec_decode hi]
      exact decStep_end rfl (hrp.trans (hzero.2 ht).symm)
    · have hpos : dataLength t ≠ 0 := fun h => ht (hzero.1 h)
      exact ⟨rfl, by simp; omega⟩

/-! ## What a decode step leaves alone -/

theorem decStep_surroundings (h : decStep α s = .next t) : SameSurroundings s t := by
  rcases decStep_next h with ⟨-, rfl⟩ | ⟨-, x, -, -, rfl⟩ | ⟨-, x, -, -, rfl⟩ |
    ⟨-, -, b, bytes, -, -, -, -, rfl⟩ | ⟨-, -, rfl⟩
  · exact .refl t
  all_goals exact ⟨rfl, rfl, rfl, rfl⟩

/-- Outside `DEC.CHECK` only `DEC.END` moves `ST`, and `DLEN` and `ERR` stay (R98, R99). -/
theorem decStep_outside_check (hs : s.st ≠ .check) (h : decStep α s = .next t) :
    t.dlen = s.dlen ∧ t.err = s.err ∧ (t.st = s.st ∨ (s.st = .xfer ∧ t.st = .done)) := by
  rcases decStep_next h with ⟨-, rfl⟩ | ⟨hc, -⟩ | ⟨hc, -⟩ | ⟨-, -, b, bytes, -, -, -, -, rfl⟩ | ⟨hx, -, rfl⟩
  · exact ⟨rfl, rfl, .inl rfl⟩
  · exact absurd hc hs
  · exact absurd hc hs
  · exact ⟨rfl, rfl, .inl rfl⟩
  · exact ⟨rfl, rfl, .inr ⟨hx, rfl⟩⟩

/-- Outside `DEC.BLOCK` the read pointer and `OUT` stay, and `OUT_LEN` outside `DEC.CHECK` too (R97, R99, R108). -/
theorem decStep_outside_block (hn : ¬(s.st = .xfer ∧ s.rp < s.dlen)) (h : decStep α s = .next t) :
    t.rp = s.rp ∧ t.outMem = s.outMem ∧ (s.st ≠ .check → t.outLen = s.outLen) := by
  rcases decStep_next h with ⟨-, rfl⟩ | ⟨-, x, -, -, rfl⟩ | ⟨hc, x, -, -, rfl⟩ | ⟨hs, hlt, -⟩ | ⟨-, -, rfl⟩
  · exact ⟨rfl, rfl, fun _ => rfl⟩
  · exact ⟨rfl, rfl, fun _ => rfl⟩
  · exact ⟨rfl, rfl, fun hs => absurd hc hs⟩
  · exact absurd ⟨hs, hlt⟩ hn
  · exact ⟨rfl, rfl, fun _ => rfl⟩

/-- `DEC.BLOCK` writes the cells of its bytes only (R27, R98). -/
theorem decStep_block_outMem (hs : s.st = .xfer) (hlt : s.rp < s.dlen) (h : decStep α s = .next t) {n : Nat}
    (hn : blockBytes (min 8 (s.dlen - s.rp)) = some n) {a : Nat} (ha : a < s.outLen ∨ s.outLen + n ≤ a) :
    Memory.read t.outMem a = Memory.read s.outMem a := by
  rcases decStep_next h with ⟨hb, -⟩ | ⟨hc, -⟩ | ⟨hc, -⟩ | ⟨-, -, b, bytes, -, hread, hbytes, -, rfl⟩ | ⟨-, he, -⟩
  · cases hb.symm.trans ((busy_iff s).2 (.inr hs))
  · cases hs.symm.trans hc
  · cases hs.symm.trans hc
  · cases hn.symm.trans (blockBytes_of_readRange hread hbytes)
    exact s.read_produce_outside _ _ ha
  · exact absurd he hlt.ne

/-- Settles O43: what every step keeps, what a step other than `DEC.CHECK` or `DEC.BLOCK` keeps, and what `DEC.BLOCK` keeps of
`OUT`. -/
theorem decodeStepFrame : Obligations.DecodeStepFrame := by
  intro i s t hi h
  rw [exec_decode hi] at h
  obtain ⟨hcmd, hlen, hmem⟩ := decStep_keeps_message h
  exact ⟨hcmd, hlen, hmem, fun hs => decStep_outside_check hs h, fun hn => decStep_outside_block hn h,
    fun hs hlt n hn a => decStep_block_outMem hs hlt h hn, decStep_surroundings h⟩

end Sys2Proof.Machine
end

section
/-! SUPPORT. The decoder family (41_decoder.md): a decode from `START` to `DONE`, the codec alone and with turns of the host between
(R98, R100, R101), and a rejected one (R108, R109). -/

namespace Sys2Proof.Machine

variable {s t : State} {m : List Byte}

/-! ## The codec alone -/

/-- The first `q` cuts of a message are the cuts of its first part (R32). -/
theorem cuts_eight_take (x : List Byte) (q : Nat) : cuts 8 (x.take (8 * q)) = (cuts 8 x).take q := by
  rcases Nat.le_total (8 * q) x.length with h | h
  · have hx : (x.take (8 * q)).length = 8 * q := List.length_take_of_le h
    have hq : (cuts 8 (x.take (8 * q))).length = q := by
      rw [cuts_length, hx, ceilDiv_eight]
      omega
    have happend := cuts_append 8 (by decide) (x.take (8 * q)) (x.drop (8 * q)) (by rw [hx]; exact Nat.mul_mod_right 8 q)
    rw [List.take_append_drop] at happend
    rw [happend, List.take_left' hq]
  · rw [List.take_of_length_le h, List.take_of_length_le]
    rw [cuts_length, ceilDiv_eight]
    omega

/-- A decode in flight past `DEC.CHECK` (R18). -/
theorem InFlight.decodeUnderway (h : InFlight s m) (hs : s.st = .xfer) (hop : opIsDecode s = true) : DecodeUnderway s m := by
  cases h.phase with
  | check hs' => cases hs.symm.trans hs'
  | encode _ hop' => cases hop.symm.trans hop'
  | decode _ _ hd => exact hd

/-- A decode in flight with characters left takes a block and stays in flight (R98). -/
theorem InFlight.exists_decBlock (h : InFlight s m) (hs : s.st = .xfer) (hop : opIsDecode s = true)
    (hlt : s.rp < s.dlen) :
    ∃ bytes, decStep (alphabetOf s.cmd) s = .next (s.produce bytes (min 8 (s.dlen - s.rp))) ∧
      InFlight (s.produce bytes (min 8 (s.dlen - s.rp))) m := by
  obtain ⟨t, ht, hstep⟩ := h.exists_codecStep
  rw [exec_of_decode hop] at ht
  have hprogress := hstep.progress h
  cases hstep with
  | @decBlock _ _ _ _ n hn bytes hb hf =>
    subst hn
    obtain ⟨-, hgo | ⟨hd, -⟩⟩ := hprogress
    · exact ⟨bytes, ht, hgo⟩
    · cases hs.symm.trans hd
  | decEnd _ _ _ he => exact absurd he hlt.ne
  | decAccept hs' | decReject hs' => cases hs.symm.trans hs'
  | encGroup _ hop' | encEnd _ hop' => cases hop.symm.trans hop'

/-- The codec alone, `q` blocks after the `START` of a decode at `s` and its `DEC.CHECK` (R98). `DEC.BLOCK` is the append that `ENC.GROUP`
is, so the frame from the accepted text on is the encode steps'. -/
structure AfterBlocks (s : State) (m : List Byte) (q : Nat) (t : State) : Prop where
  inFlight : InFlight t m
  isDecode : opIsDecode t = true
  inXfer : t.st = .xfer
  rp : t.rp = min (8 * q) (dataLength m)
  frame : EncodeFrame ((s.begin.setAgenda []).acceptText (dataLength m)) t

namespace AfterBlocks
variable {q : Nat}

theorem underway (h : AfterBlocks s m q t) : DecodeUnderway t m := h.inFlight.decodeUnderway h.inXfer h.isDecode

theorem step_eq (h : AfterBlocks s m q t) : step t = decStep (alphabetOf t.cmd) t := by
  rw [step_empty h.frame.agenda, exec_of_decode h.isDecode]

/-- `DEC.BLOCK`, as long as there is a block left. -/
theorem step_block (h : AfterBlocks s m q t) (hq : q < ceilDiv (dataLength m) 8) :
    ∃ u, step t = .next u ∧ AfterBlocks s m (q + 1) u := by
  have hdlen := h.underway.dlenIsData
  have hrp := h.rp
  rw [ceilDiv_eight] at hq
  obtain ⟨bytes, hb, hgo⟩ := h.inFlight.exists_decBlock h.inXfer h.isDecode (by omega)
  exact ⟨_, h.step_eq.trans hb, hgo, h.isDecode, h.inXfer, by rw [State.produce_rp]; omega, h.frame.trans (.produce t _ _)⟩

/-- `OUT` holds the bytes of the blocks taken (R98). -/
theorem outHolds (h : AfterBlocks s m q t) :
    Memory.readRange t.outMem 0 t.outLen = decBlocks (alphabetOf s.cmd) ((cuts 8 (dataPortion m)).take q) := by
  have hout := h.underway.outHolds
  rwa [h.rp, ← dataPortion_length, ← List.take_eq_take_min, cuts_eight_take, h.frame.cmd] at hout

/-- After the last block the whole data portion has been taken. -/
theorem rp_eq_dlen (h : AfterBlocks s m (ceilDiv (dataLength m) 8) t) : t.rp = t.dlen := by
  rw [h.rp, h.underway.dlenIsData, ceilDiv_eight]
  omega

/-- `DEC.END`, after the last block (R99). -/
theorem step_end (h : AfterBlocks s m (ceilDiv (dataLength m) 8) t) : step t = .next t.finish :=
  h.step_eq.trans (decStep_end h.inXfer h.rp_eq_dlen)

end AfterBlocks

theorem State.begin_st_decode (hop : opIsDecode s = true) : (s.begin.setAgenda []).st = .check := if_pos hop

section Alone
variable (h : ReadyToStart s m) (hop : opIsDecode s = true)

include h

theorem ReadyToStart.inFlight : InFlight (s.begin.setAgenda []) m :=
  (inFlight_begin h.capacities h.inLenFits h.held).beside [] s.replies s.draws

include hop

/-- The `START` and the codec's step after it: what `DEC.CHECK` answers on the message (R97). -/
theorem ReadyToStart.runFor_check (ht : decStep (alphabetOf s.cmd) (s.begin.setAgenda []) = .next t) :
    runFor 2 s = .next t := by
  have hstep : step (s.begin.setAgenda []) = .next t :=
    (step_empty rfl).trans ((exec_of_decode (s := s.begin.setAgenda []) hop).trans ht)
  exact (runFor_add h.runFor_start).trans (runFor_succ (n := 0) hstep)

/-- After `DEC.CHECK` on an accepted text no block has been taken. -/
theorem ReadyToStart.afterCheck (hv : validText (alphabetOf s.cmd) m = true) :
    AfterBlocks s m 0 ((s.begin.setAgenda []).acceptText (dataLength m)) where
  inFlight := by
    have hstep : CodecStep (s.begin.setAgenda []) m _ := .decAccept (State.begin_st_decode hop) hop rfl rfl hv
    obtain ⟨-, hgo | ⟨hd, -⟩⟩ := hstep.progress h.inFlight
    · exact hgo
    · cases hd
  isDecode := hop
  inXfer := rfl
  rp := (Nat.zero_min _).symm
  frame := .refl _

theorem ReadyToStart.runFor_blocks (hv : validText (alphabetOf s.cmd) m = true) {q : Nat}
    (hq : q ≤ ceilDiv (dataLength m) 8) : ∃ t, runFor (2 + q) s = .next t ∧ AfterBlocks s m q t := by
  induction q with
  | zero =>
    exact ⟨_, h.runFor_check hop (decStep_accept (State.begin_st_decode hop) h.held hv), h.afterCheck hop hv⟩
  | succ q ih =>
    obtain ⟨t, ht, hafter⟩ := ih (by omega)
    obtain ⟨u, hu, hnext⟩ := hafter.step_block hq
    exact ⟨u, (runFor_add ht).trans (runFor_succ (n := 0) hu), hnext⟩

/-- A whole decode of an accepted text, the codec alone: `DEC.CHECK`, every block, then `DEC.END` (R100, R101). -/
theorem ReadyToStart.runFor_decode (hv : validText (alphabetOf s.cmd) m = true) :
    ∃ t, AfterBlocks s m (ceilDiv (dataLength m) 8) t ∧
      runFor (1 + (1 + ceilDiv (dataLength m) 8 + 1)) s = .next t.finish := by
  obtain ⟨t, ht, hafter⟩ := h.runFor_blocks hop hv le_rfl
  refine ⟨t, hafter, ?_⟩
  rw [show 1 + (1 + ceilDiv (dataLength m) 8 + 1) = 2 + ceilDiv (dataLength m) 8 + 1 by omega]
  exact (runFor_add ht).trans (runFor_succ (n := 0) hafter.step_end)

end Alone

/-- Settles O40: the state after `DEC.CHECK` and `q` blocks. -/
theorem decodeProgressesBlockByBlock : Obligations.DecodeProgressesBlockByBlock := by
  intro s x q h hop hv hq
  obtain ⟨t, ht, hafter⟩ := h.runFor_blocks hop hv hq
  have hdlen := hafter.underway.dlenIsData
  exact ⟨t, ht, hafter.inXfer, hdlen, hdlen ▸ hafter.rp, hafter.outHolds⟩

/-! ## A whole decode -/

theorem opIsDecode_eq_true_of_decode {i : Instr} (hi : i = .dec32 ∨ i = .dec32hex) (h : s.cmd = encode i) :
    opIsDecode s = true := by
  rw [opIsDecode_of_encode h]
  exact decide_eq_true hi

/-- The alphabet of the command whose word stands in `CMD` (R11, R46). -/
theorem alphabetOf_of_encode {i : Instr} (h : s.cmd = encode i) : alphabetOf s.cmd = alphabetOfInstr i := by
  rw [← alphabetOf_cmd, fetchCommand_of_encode h]

/-- Settles O41: alone, `DEC.CHECK`, every block's step and `DEC.END` with their frames composed; with the host, the result every
operation of the command has (R21), and what every operation leaves alone. -/
theorem decodeOperationGivesTheBytes : Obligations.DecodeOperationGivesTheBytes := by
  refine ⟨fun i s x b hi hc h hb => ?alone, fun i s t x b hi hc hb hrun => ?withHost⟩
  case alone =>
    have hv : validText (alphabetOf s.cmd) x = true := alphabetOf_of_encode hc ▸ validText_of_decodeMessage hb
    obtain ⟨t, hafter, hend⟩ := h.runFor_decode (opIsDecode_eq_true_of_decode hi hc) hv
    have hu := hafter.underway
    have hcmd : fetchCommand t = i := fetchCommand_of_encode (hafter.frame.cmd.trans hc)
    have hres := hu.holdsResult hafter.inFlight.outHeld hafter.inFlight.errClear hafter.isDecode hafter.rp_eq_dlen
    rw [hcmd, commandResult_accepted hi hb] at hres
    obtain ⟨herr, hlen, hout⟩ := hres
    have hframe := hafter.frame
    exact ⟨t.finish, hend, rfl, herr, hlen, hout, fun a ha => hframe.outMem a (.inr ha),
      hafter.rp_eq_dlen.trans hu.dlenIsData, hu.dlenIsData, hframe.cmd, hframe.inLen, hframe.inMem, hframe.agenda,
      hframe.replies, hframe.draws, hframe.caps⟩
  case withHost =>
    have hres := hrun.holdsResult
    rw [fetchCommand_of_encode hc, commandResult_accepted hi hb] at hres
    obtain ⟨herr, hlen, hout⟩ := hres
    refine ⟨herr, hlen, hout, fun a ha => ?_⟩
    obtain ⟨-, hkept⟩ := hrun.outKeptPast a ha
    exact hkept

/-! ## A rejected decode -/

/-- From `s` to `t` no cell of `OUT` has been written, and the operation in flight is still the command's of `s` (R35, R109). -/
structure OutUnwritten (s t : State) : Prop where
  outMem : t.outMem = s.outMem
  cmd : busy t = true → t.cmd = s.cmd

/-- The only codec step of a decode in flight on a rejected text is `DEC.CHECK` raising `InvalidInput` (R97, R108). -/
theorem CodecStep.eq_invalidInput (h : CodecStep s m t) (hop : opIsDecode s = true)
    (hv : validText (alphabetOf s.cmd) m = false) : t = s.invalidInput := by
  cases h with
  | decReject => rfl
  | decAccept _ _ _ _ hv' => cases hv.symm.trans hv'
  | decBlock _ _ h | decEnd _ _ h => cases hv.symm.trans h.validated
  | encGroup _ hop' | encEnd _ hop' => cases hop.symm.trans hop'

/-- A step of either agent on a decode in flight on a rejected text writes no cell of `OUT`. -/
theorem InFlight.step_outMem_of_rejected (h : InFlight s m) (hop : opIsDecode s = true)
    (hv : validText (alphabetOf s.cmd) m = false) (hr : ¬ hostNext s .reset) (ht : step s = .next t) :
    t.outMem = s.outMem := by
  rcases step_effect_busy h.isBusy hr ht with ⟨rest, hx⟩ | ⟨l, r, d, rfl⟩
  · have h' : InFlight (s.setAgenda rest) m := h.beside rest s.replies s.draws
    rw [(h'.codecStep hx).eq_invalidInput hop hv]
    rfl
  · rfl

theorem OperationRun.outUnwritten_of_rejected (h : OperationRun s m t) (hop : opIsDecode s = true)
    (hv : validText (alphabetOf s.cmd) m = false) : OutUnwritten s t := by
  refine h.induction (fun _ => ⟨rfl, fun _ => rfl⟩) (fun u v hf hr hstep hu => ?inFlight)
    fun u v hdu hdv hstep hu => ?done
  case inFlight =>
    have hcmd := hu.cmd hf.isBusy
    obtain ⟨hkept, -⟩ := hf.step_progress hr hstep
    have hmem : v.outMem = u.outMem :=
      hf.step_outMem_of_rejected (by rwa [opIsDecode, hcmd]) (by rwa [hcmd]) hr hstep
    exact ⟨hmem.trans hu.outMem, fun _ => hkept.trans hcmd⟩
  case done =>
    obtain ⟨-, -, hmem⟩ := step_done_keeps_result hdu hdv hstep
    exact ⟨hmem.trans hu.outMem, fun hb => absurd hb (not_busy_of_done hdv)⟩

/-- Settles O42: alone, `START` and `DEC.CHECK`; with the host, the result every operation of the command has (R21), and no step that
writes `OUT`. -/
theorem rejectedDecodeHasNoOtherEffect : Obligations.RejectedDecodeHasNoOtherEffect := by
  refine ⟨fun i s x hi hc h hb => ?alone, fun i s t x hi hc hb hrun => ?withHost⟩
  case alone =>
    have hv : validText (alphabetOf s.cmd) x = false := alphabetOf_of_encode hc ▸ decodeMessage_eq_none_iff.1 hb
    have hop := opIsDecode_eq_true_of_decode hi hc
    exact h.runFor_check hop (decStep_reject (State.begin_st_decode hop) h.held hv)
  case withHost =>
    have hv : validText (alphabetOf s.cmd) x = false := alphabetOf_of_encode hc ▸ decodeMessage_eq_none_iff.1 hb
    obtain ⟨herr, hlen, -⟩ := hrun.holdsResult
    rw [fetchCommand_of_encode hc, commandResult_rejected hi hb] at herr hlen
    exact ⟨herr, hlen, (hrun.outUnwritten_of_rejected (opIsDecode_eq_true_of_decode hi hc) hv).outMem⟩

end Sys2Proof.Machine
end

section
/-! SUPPORT. The exceptions family (60_exceptions.md): which steps leave `DONE` and `ERR` standing, and which end them (R112). -/

namespace Sys2Proof.Machine

variable {s t : State}

/-! ## The two turns that end `DONE` -/

/-- A `START` that passes its gate and its check begins the operation (R24). -/
theorem actStart_next (hb : busy s = false) (h : actStart s = .next t) : t = s.begin := by
  rw [actStart, gated_notBusy hb] at h
  split at h
  · exact (Host.Outcome.next.inj h).symm
  · cases h

theorem step_eq_begin_of_start (hb : busy s = false) (hn : hostNext s .start) (h : step s = .next t) :
    ∃ rest, t = (s.setAgenda rest).begin := by
  obtain ⟨rest, hag⟩ := hn
  rw [step_host hag] at h
  exact ⟨rest, actStart_next (s := s.setAgenda rest) hb h⟩

theorem step_eq_resetCodec_of_reset (hn : hostNext s .reset) (h : step s = .next t) :
    ∃ rest, t = (s.setAgenda rest).resetCodec := by
  obtain ⟨rest, hag⟩ := hn
  rw [step_host hag] at h
  exact ⟨rest, (Host.Outcome.next.inj h).symm⟩

/-- `START` leads to the first state of either direction, and both are busy (R12, R24). -/
@[simp] theorem busy_begin (s : State) : busy s.begin = true := by
  rw [busy_iff, State.begin_st]
  split
  · exact .inl rfl
  · exact .inr rfl

/-! ## Every other step at `DONE` -/

/-- At `DONE` the codec waits, and no action of the host but `START` and `RESET` writes `ST` (R18, R24). -/
theorem step_keeps_done (hs : s.st = .done) (hstart : ¬ hostNext s .start) (hreset : ¬ hostNext s .reset)
    (h : step s = .next t) : t.st = .done := by
  rcases step_effect h with ⟨rest, hx⟩ | ⟨a, rest, hag, he⟩ | ⟨l, r, d, rfl⟩
  · have hb : busy (s.setAgenda rest) = false := (busy_eq_false_iff _).2 (.inr hs)
    rw [codecWaitsWhileNotBusy _ _ hb] at hx
    cases hx
    exact hs
  · cases he with
    | reply | wrCmd | wrInLen | wrIn => exact hs
    | start => exact absurd ⟨rest, hag⟩ hstart
    | reset => exact absurd ⟨rest, hag⟩ hreset
  · exact hs

/-- Settles O57: a step that stays at `DONE` keeps the result; a `START` turn there is `begin`, a `RESET` turn is `resetCodec`. -/
theorem errorStatusPersistsUntilStartOrReset : Obligations.ErrorStatusPersistsUntilStartOrReset := by
  refine ⟨fun s t hs hstart hreset h => ?persists, fun s t hs hn h => ?start, fun s t hn h => ?reset⟩
  case persists =>
    have hd := step_keeps_done hs hstart hreset h
    exact ⟨hd, step_done_keeps_result hs hd h⟩
  case start =>
    obtain ⟨rest, rfl⟩ := step_eq_begin_of_start ((busy_eq_false_iff s).2 (.inr hs)) hn h
    exact ⟨State.begin_err _, busy_begin _⟩
  case reset =>
    obtain ⟨rest, rfl⟩ := step_eq_resetCodec_of_reset hn h
    exact ⟨State.resetCodec_err _, State.resetCodec_st _⟩

end Sys2Proof.Machine
end

section
/-! SUPPORT. The reset and hazards family (70_reset_and_hazards.md): the bound on an operation's steps (R134), the message an
operation sees (R130, R133), the `RESET` turn (R124, R126). -/

namespace Sys2Proof.Machine

variable {s t : State} {m : List Byte}

/-! ## The end of every operation -/

theorem stepsLeft_of_done (hs : s.st = .done) : stepsLeft s = 0 := by simp [stepsLeft, hs]

/-- The blocks of a text's data portion are no more than the groups of a payload of the text's length (R134). -/
theorem ceilDiv_eight_le_ceilDiv_five {d n : Nat} (h : d ≤ n) : ceilDiv d 8 ≤ ceilDiv n 5 := by
  rw [ceilDiv_eight, ceilDiv_five]
  omega

/-- What is left of an operation in flight is at most its groups or blocks, `DEC.CHECK` and the end step (R134). -/
theorem InFlight.stepsLeft_le (h : InFlight s m) : stepsLeft s ≤ ceilDiv s.inLen 5 + 2 := by
  cases h.phase with
  | check hs =>
    have hdata : dataLength m ≤ s.inLen := message_length h.held ▸ dataLength_le m
    have hblocks := ceilDiv_eight_le_ceilDiv_five hdata
    simp only [stepsLeft, hs, h.held]
    split <;> omega
  | encode hs hop =>
    simp only [stepsLeft, hs, hop, ceilDiv_five, Bool.false_eq_true, if_false]
    omega
  | decode hs hop hd =>
    have hdlen := hd.dlen_le h.held
    have hblocks := ceilDiv_eight_le_ceilDiv_five (d := s.dlen - s.rp) (n := s.inLen) (by omega)
    simp only [stepsLeft, hs, hop, if_true]
    omega

/-- The codec alone reaches `DONE` in exactly the steps that are left: each step goes on with one less, or stands at `DONE` with none
left (R134, R135). -/
theorem InFlight.runFor_stepsLeft {s : State} (h : InFlight s m) (hag : s.agenda = []) :
    ∃ t, runFor (stepsLeft s) s = .next t ∧ t.st = .done := by
  obtain ⟨t, ht, hstep⟩ := h.exists_codecStep
  have hleft := hstep.stepsLeft_eq h.held
  rw [hleft, runFor_succ ((step_empty hag).trans ht)]
  obtain ⟨-, hgo | ⟨hd, -⟩⟩ := hstep.progress h
  · exact hgo.runFor_stepsLeft (hstep.agenda_eq.trans hag)
  · rw [stepsLeft_of_done hd]
    exact ⟨t, rfl, hd⟩
termination_by stepsLeft s
decreasing_by omega

/-- Settles O10: a busy state with the invariant has an operation in flight, whose steps are bounded and lead to `DONE`. -/
theorem operationEndsWithinBound : Obligations.OperationEndsWithinBound := by
  intro s h hb hag
  obtain ⟨m, hm⟩ := Option.isSome_iff_exists.1 (h.messageHeld hb)
  have hflight := h.inFlight hb hm
  exact ⟨hflight.stepsLeft_le, hflight.runFor_stepsLeft hag⟩

/-! ## The message of an operation -/

/-- `START` is refused over a message with a cell that holds no value (R133; log entry 13). -/
theorem actStart_unwritten (hb : busy s = false) (hm : message s = none) :
    actStart s = .refused .messageCellUnwritten := by
  rw [actStart, gated_notBusy hb, hm]

/-- Settles O51: `RESET` empties `IN`, a cell without a value leaves no message to start, and no command writes `IN`. -/
theorem startOverUnwrittenCellIsRefused : Obligations.StartOverUnwrittenCellIsRefused := by
  refine ⟨fun s t h a => ?reset, fun s a hb hn ha hread => ?start, fun i s t h a => ?codec⟩
  case reset =>
    cases h
    exact Memory.read_nil a
  case start =>
    obtain ⟨rest, hag⟩ := hn
    have hm : message (s.setAgenda rest) = none :=
      Memory.readRange_eq_none (Nat.zero_le a) (by rwa [Nat.zero_add]) hread
    rw [step_host hag]
    exact actStart_unwritten (s := s.setAgenda rest) hb hm
  case codec =>
    obtain ⟨-, -, hmem⟩ := exec_keeps_message h
    rw [hmem]

/-- Settles O56: a step of a busy codec is the command's, which writes no part of the message, or a turn of the host beside the codec. -/
theorem messageIsFrozenWhileBusy : Obligations.MessageIsFrozenWhileBusy := by
  intro s t hb hr h
  rcases step_effect_busy hb hr h with ⟨rest, hx⟩ | ⟨l, r, d, rfl⟩
  · exact exec_keeps_message (s := s.setAgenda rest) hx
  · exact ⟨rfl, rfl, rfl⟩

/-! ## The `RESET` turn -/

/-- A `RESET` turn passes no gate: it is `resetCodec` in every state (R124, R126). -/
theorem step_reset {rest : List Turn} (hag : s.agenda = .host (.act .reset) :: rest) :
    step s = .next (s.setAgenda rest).resetCodec := step_host hag

/-- Settles O52: the state a `RESET` turn leaves, field by field. -/
theorem resetActsInAnyState : Obligations.ResetActsInAnyState := fun s _ hag =>
  have hcells : ∀ a, Memory.read s.resetCodec.inMem a = none ∧ Memory.read s.resetCodec.outMem a = none :=
    fun a => ⟨Memory.read_nil a, Memory.read_nil a⟩
  ⟨_, step_reset hag, rfl, rfl, rfl, rfl, rfl, rfl, rfl, rfl, rfl, hcells, rfl, rfl, rfl, rfl⟩

end Sys2Proof.Machine
end
